-- ==== Sys2Proof/Word.lean ====
section
/-! DEFINITION. The word types of the machine and the number of a register. Every value is unsigned
(00_scope.md section 5): there is no signed arithmetic and no sign extension anywhere. -/

namespace Sys2Proof

/-- One byte: a general register, a timer, a cell of memory, the immediate NN. -/
abbrev Byte := BitVec 8

/-- Sixteen bits: PC, I, a stack entry, an opcode. -/
abbrev Word := BitVec 16

/-- The 12-bit address field NNN (30_encoding.md R62). -/
abbrev Addr := BitVec 12

/-- The 4-bit immediate N, the height of a sprite (30_encoding.md R62, R63). -/
abbrev Nibble := BitVec 4

/-- The number of a general register, 0 to 15; all sixteen are legal in every register field
(10_state.md R10, 30_encoding.md R63). -/
abbrev Reg := Fin 16

/-- VF = V[15], the flags register (10_state.md R11). -/
def VF : Reg := 15

end Sys2Proof
end

