-- ==== Sys2Proof/Syntax.lean ====
section
/-! DEFINITION. The 34 instructions, one constructor per row of spec/opcode_table.json, with the operands
as 30_encoding.md R61 to R63 gives them. BNNN's second field, X = NNN[11:8], overlaps NNN and is read
from it. -/

namespace Sys2Proof

inductive Instr where
  /-- 00E0 CLS, R170 -/
  | cls
  /-- 00EE RET, R103 -/
  | ret
  /-- 1NNN JP NNN, R102 -/
  | jp (nnn : Addr)
  /-- 2NNN CALL NNN, R101 -/
  | call (nnn : Addr)
  /-- 3XNN SE Vx, NN, R104 -/
  | seImm (x : Reg) (nn : Byte)
  /-- 4XNN SNE Vx, NN, R105 -/
  | sneImm (x : Reg) (nn : Byte)
  /-- 5XY0 SE Vx, Vy, R106 -/
  | seReg (x y : Reg)
  /-- 6XNN LD Vx, NN, R120 -/
  | ldImm (x : Reg) (nn : Byte)
  /-- 7XNN ADD Vx, NN, R121 -/
  | addImm (x : Reg) (nn : Byte)
  /-- 8XY0 LD Vx, Vy, R122 -/
  | ldReg (x y : Reg)
  /-- 8XY1 OR Vx, Vy, R123 -/
  | orReg (x y : Reg)
  /-- 8XY2 AND Vx, Vy, R124 -/
  | andReg (x y : Reg)
  /-- 8XY3 XOR Vx, Vy, R125 -/
  | xorReg (x y : Reg)
  /-- 8XY4 ADD Vx, Vy, R126 -/
  | addReg (x y : Reg)
  /-- 8XY5 SUB Vx, Vy, R127 -/
  | subReg (x y : Reg)
  /-- 8XY6 SHR Vx, Vy, R128 -/
  | shr (x y : Reg)
  /-- 8XY7 SUBN Vx, Vy, R129 -/
  | subn (x y : Reg)
  /-- 8XYE SHL Vx, Vy, R130 -/
  | shl (x y : Reg)
  /-- 9XY0 SNE Vx, Vy, R107 -/
  | sneReg (x y : Reg)
  /-- ANNN LD I, NNN, R150 -/
  | ldI (nnn : Addr)
  /-- BNNN JP V0, NNN, R108 -/
  | jpV0 (nnn : Addr)
  /-- CXNN RND Vx, NN, R195 -/
  | rnd (x : Reg) (nn : Byte)
  /-- DXYN DRW Vx, Vy, N, R171 -/
  | drw (x y : Reg) (n : Nibble)
  /-- EX9E SKP Vx, R190 -/
  | skp (x : Reg)
  /-- EXA1 SKNP Vx, R191 -/
  | sknp (x : Reg)
  /-- FX07 LD Vx, DT, R193 -/
  | ldVxDt (x : Reg)
  /-- FX0A LD Vx, K, R192 -/
  | ldVxK (x : Reg)
  /-- FX15 LD DT, Vx, R194 -/
  | ldDtVx (x : Reg)
  /-- FX18 LD ST, Vx, R197 -/
  | ldStVx (x : Reg)
  /-- FX1E ADD I, Vx, R151 -/
  | addI (x : Reg)
  /-- FX29 LD F, Vx, R152 -/
  | ldF (x : Reg)
  /-- FX33 LD B, Vx, R153 -/
  | ldB (x : Reg)
  /-- FX55 LD [I], Vx, R154 -/
  | storeRegs (x : Reg)
  /-- FX65 LD Vx, [I], R155 -/
  | loadRegs (x : Reg)
deriving DecidableEq, Repr

end Sys2Proof
end

