-- ==== Sys2Proof/WellFormed.lean ====
section
/-! DEFINITION. Well-formedness. 30_encoding.md R63 makes every value of every operand field legal, so the
widths are the only checks, and the operand types already carry them: every `Instr` is well formed. The
checks are also given on plain numbers, for operands that come from outside (a listing, a test). -/

namespace Sys2Proof

/-- The operand fields of 30_encoding.md R62 that an instruction carries. -/
inductive OperandField where
  | x | y | n | nn | nnn
deriving DecidableEq, Repr

/-- The width of a field in bits (R62). -/
def OperandField.width : OperandField → Nat
  | .x | .y | .n => 4
  | .nn => 8
  | .nnn => 12

/-- The one check of a field: the number fits its width (R63: nothing is scaled or sign-extended, and no
value is reserved). -/
def OperandField.fits (f : OperandField) (value : Nat) : Bool := value < 2 ^ f.width

/-- The operands of an instruction as plain numbers, each with its field. -/
def Instr.operands : Instr → List (OperandField × Nat)
  | .cls | .ret => []
  | .jp a | .call a | .ldI a | .jpV0 a => [(.nnn, a.toNat)]
  | .seImm x k | .sneImm x k | .ldImm x k | .addImm x k | .rnd x k => [(.x, x.val), (.nn, k.toNat)]
  | .seReg x y | .ldReg x y | .orReg x y | .andReg x y | .xorReg x y | .addReg x y | .subReg x y | .shr x y
  | .subn x y | .shl x y | .sneReg x y => [(.x, x.val), (.y, y.val)]
  | .drw x y n => [(.x, x.val), (.y, y.val), (.n, n.toNat)]
  | .skp x | .sknp x | .ldVxDt x | .ldVxK x | .ldDtVx x | .ldStVx x | .addI x | .ldF x | .ldB x | .storeRegs x
  | .loadRegs x => [(.x, x.val)]

/-- A list of operands is well formed when each fits its field. -/
def operandsFit (ops : List (OperandField × Nat)) : Bool := ops.all fun p => p.1.fits p.2

/-- An instruction is well formed when its operands fit; by the operand types it always is
(`Laws.wellFormed_all`). -/
def Instr.wellFormed (i : Instr) : Bool := operandsFit i.operands

end Sys2Proof
end

