-- ==== Sys2Proof/Decode.lean ====
section
/-! DEFINITION. The instruction encoding, 30_encoding.md: the six fields of an opcode (R62), the two-level
decoder (R64 to R71), total on any bytes and refusing by name (R72, R74), then the encoder written from
the same table (R61, R65), the opcode map itself (R65) and the host's entry `decodeTableWord`. The numeric
patterns are the spec's own (decision D1; log entry 5). -/

namespace Sys2Proof

/-- The six fields every opcode is split into (R62). -/
structure Fields where
  f : Nibble
  x : Nibble
  y : Nibble
  n : Nibble
  nn : Byte
  nnn : Addr
deriving DecidableEq, Repr

/-- Field extraction (R62, 40_step_cycle.md R85): all six, for every opcode. -/
def fieldsOf (op : Word) : Fields where
  f := op.extractLsb' 12 4
  x := op.extractLsb' 8 4
  y := op.extractLsb' 4 4
  n := op.extractLsb' 0 4
  nn := op.extractLsb' 0 8
  nnn := op.extractLsb' 0 12

/-- The register a 4-bit field names (10_state.md R10). -/
def regOfField (b : Nibble) : Reg := b.toFin

/-- The 4-bit field that names a register. -/
def fieldOfReg (r : Reg) : Nibble := BitVec.ofFin r

/-- Why bytes are refused. -/
inductive DecodeReject where
  /-- Fewer than the two bytes of an instruction (R60). -/
  | truncated
  /-- A word that is none of the 34 instructions (R72). -/
  | unknownOpcode (op : Word)
deriving DecidableEq, Repr

/-- Family 0, whole-word matches on the low 12 bits (R67). -/
def decodeFamily0 (op : Word) (d : Fields) : Except DecodeReject Instr :=
  if d.nnn = 0x0E0 then .ok .cls
  else if d.nnn = 0x0EE then .ok .ret
  else .error (.unknownOpcode op)

/-- Family 8, selected by N (R69). -/
def decodeFamily8 (op : Word) (d : Fields) : Except DecodeReject Instr :=
  match d.n.toNat with
  | 0x0 => .ok (.ldReg (regOfField d.x) (regOfField d.y))
  | 0x1 => .ok (.orReg (regOfField d.x) (regOfField d.y))
  | 0x2 => .ok (.andReg (regOfField d.x) (regOfField d.y))
  | 0x3 => .ok (.xorReg (regOfField d.x) (regOfField d.y))
  | 0x4 => .ok (.addReg (regOfField d.x) (regOfField d.y))
  | 0x5 => .ok (.subReg (regOfField d.x) (regOfField d.y))
  | 0x6 => .ok (.shr (regOfField d.x) (regOfField d.y))
  | 0x7 => .ok (.subn (regOfField d.x) (regOfField d.y))
  | 0xE => .ok (.shl (regOfField d.x) (regOfField d.y))
  | _ => .error (.unknownOpcode op)

/-- Family E, selected by the whole low byte (R71). -/
def decodeFamilyE (op : Word) (d : Fields) : Except DecodeReject Instr :=
  if d.nn = 0x9E then .ok (.skp (regOfField d.x))
  else if d.nn = 0xA1 then .ok (.sknp (regOfField d.x))
  else .error (.unknownOpcode op)

/-- Family F, selected by the whole low byte (R71). -/
def decodeFamilyF (op : Word) (d : Fields) : Except DecodeReject Instr :=
  if d.nn = 0x07 then .ok (.ldVxDt (regOfField d.x))
  else if d.nn = 0x0A then .ok (.ldVxK (regOfField d.x))
  else if d.nn = 0x15 then .ok (.ldDtVx (regOfField d.x))
  else if d.nn = 0x18 then .ok (.ldStVx (regOfField d.x))
  else if d.nn = 0x1E then .ok (.addI (regOfField d.x))
  else if d.nn = 0x29 then .ok (.ldF (regOfField d.x))
  else if d.nn = 0x33 then .ok (.ldB (regOfField d.x))
  else if d.nn = 0x55 then .ok (.storeRegs (regOfField d.x))
  else if d.nn = 0x65 then .ok (.loadRegs (regOfField d.x))
  else .error (.unknownOpcode op)

/-- Dispatch on the family F, then on the secondary sub-opcode (R64, R68). -/
def decodeWord (op : Word) : Except DecodeReject Instr :=
  let d := fieldsOf op
  match d.f.toNat with
  | 0x0 => decodeFamily0 op d
  | 0x1 => .ok (.jp d.nnn)
  | 0x2 => .ok (.call d.nnn)
  | 0x3 => .ok (.seImm (regOfField d.x) d.nn)
  | 0x4 => .ok (.sneImm (regOfField d.x) d.nn)
  | 0x5 => if d.n = 0 then .ok (.seReg (regOfField d.x) (regOfField d.y)) else .error (.unknownOpcode op)
  | 0x6 => .ok (.ldImm (regOfField d.x) d.nn)
  | 0x7 => .ok (.addImm (regOfField d.x) d.nn)
  | 0x8 => decodeFamily8 op d
  | 0x9 => if d.n = 0 then .ok (.sneReg (regOfField d.x) (regOfField d.y)) else .error (.unknownOpcode op)
  | 0xA => .ok (.ldI d.nnn)
  | 0xB => .ok (.jpV0 d.nnn)
  | 0xC => .ok (.rnd (regOfField d.x) d.nn)
  | 0xD => .ok (.drw (regOfField d.x) (regOfField d.y) d.n)
  | 0xE => decodeFamilyE op d
  | _ => decodeFamilyF op d

/-- The opcode two fetched bytes form: the byte at the lower address is the high byte (20_memory.md R49). -/
def opcodeOfBytes (hi lo : Byte) : Word := (hi ++ lo : BitVec (8 + 8))

/-- Decode the instruction at the head of some bytes and give the bytes after it. -/
def decode : List Byte → Except DecodeReject (Instr × List Byte)
  | hi :: lo :: rest =>
    match decodeWord (opcodeOfBytes hi lo) with
    | .ok i => .ok (i, rest)
    | .error e => .error e
  | _ => .error .truncated

/-! ### The encoder (R61, R65) -/

/-- Format XY: F, X, Y and a fixed N (R61). -/
def wordXY (f : Nibble) (x y : Reg) (n : Nibble) : Word :=
  (f ++ fieldOfReg x ++ fieldOfReg y ++ n : BitVec (4 + 4 + 4 + 4))

/-- Format XNN: F, X and NN; format X is the same with a fixed NN (R61). -/
def wordXNN (f : Nibble) (x : Reg) (nn : Byte) : Word :=
  (f ++ fieldOfReg x ++ nn : BitVec (4 + 4 + 8))

/-- Format NNN: F and NNN (R61). -/
def wordNNN (f : Nibble) (nnn : Addr) : Word := (f ++ nnn : BitVec (4 + 12))

/-- The word of an instruction (R65). -/
def encode : Instr → Word
  | .cls => 0x00E0
  | .ret => 0x00EE
  | .jp a => wordNNN 0x1 a
  | .call a => wordNNN 0x2 a
  | .seImm x k => wordXNN 0x3 x k
  | .sneImm x k => wordXNN 0x4 x k
  | .seReg x y => wordXY 0x5 x y 0x0
  | .ldImm x k => wordXNN 0x6 x k
  | .addImm x k => wordXNN 0x7 x k
  | .ldReg x y => wordXY 0x8 x y 0x0
  | .orReg x y => wordXY 0x8 x y 0x1
  | .andReg x y => wordXY 0x8 x y 0x2
  | .xorReg x y => wordXY 0x8 x y 0x3
  | .addReg x y => wordXY 0x8 x y 0x4
  | .subReg x y => wordXY 0x8 x y 0x5
  | .shr x y => wordXY 0x8 x y 0x6
  | .subn x y => wordXY 0x8 x y 0x7
  | .shl x y => wordXY 0x8 x y 0xE
  | .sneReg x y => wordXY 0x9 x y 0x0
  | .ldI a => wordNNN 0xA a
  | .jpV0 a => wordNNN 0xB a
  | .rnd x k => wordXNN 0xC x k
  | .drw x y n => wordXY 0xD x y n
  | .skp x => wordXNN 0xE x 0x9E
  | .sknp x => wordXNN 0xE x 0xA1
  | .ldVxDt x => wordXNN 0xF x 0x07
  | .ldVxK x => wordXNN 0xF x 0x0A
  | .ldDtVx x => wordXNN 0xF x 0x15
  | .ldStVx x => wordXNN 0xF x 0x18
  | .addI x => wordXNN 0xF x 0x1E
  | .ldF x => wordXNN 0xF x 0x29
  | .ldB x => wordXNN 0xF x 0x33
  | .storeRegs x => wordXNN 0xF x 0x55
  | .loadRegs x => wordXNN 0xF x 0x65

/-- The high byte of a word. -/
def highByte (w : Word) : Byte := w.extractLsb' 8 8

/-- The low byte of a word. -/
def lowByte (w : Word) : Byte := w.extractLsb' 0 8

/-- A word as memory holds it, high byte first (20_memory.md R49). -/
def bytesOfWord (w : Word) : List Byte := [highByte w, lowByte w]

/-- An instruction as memory holds it. -/
def encodeBytes (i : Instr) : List Byte := bytesOfWord (encode i)

/-! ### The opcode map (R65) -/

/-- One row of the opcode map: `op` is the instruction exactly when `op &&& mask = pattern`. -/
structure OpcodeRow where
  mnemonic : String
  mask : Word
  pattern : Word
deriving DecidableEq, Repr

/-- A word matches a row (R65). -/
def OpcodeRow.covers (r : OpcodeRow) (op : Word) : Bool := op &&& r.mask == r.pattern

/-- No word matches both rows: the two patterns differ in a bit both masks fix. -/
def OpcodeRow.disjoint (r q : OpcodeRow) : Bool := r.pattern &&& q.mask != q.pattern &&& r.mask

/-- The row of an instruction in spec/opcode_table.json. -/
def Instr.row : Instr → OpcodeRow
  | .cls => ⟨"CLS", 0xFFFF, 0x00E0⟩
  | .ret => ⟨"RET", 0xFFFF, 0x00EE⟩
  | .jp _ => ⟨"JP_NNN", 0xF000, 0x1000⟩
  | .call _ => ⟨"CALL_NNN", 0xF000, 0x2000⟩
  | .seImm _ _ => ⟨"SE_Vx__NN", 0xF000, 0x3000⟩
  | .sneImm _ _ => ⟨"SNE_Vx__NN", 0xF000, 0x4000⟩
  | .seReg _ _ => ⟨"SE_Vx__Vy", 0xF00F, 0x5000⟩
  | .ldImm _ _ => ⟨"LD_Vx__NN", 0xF000, 0x6000⟩
  | .addImm _ _ => ⟨"ADD_Vx__NN", 0xF000, 0x7000⟩
  | .ldReg _ _ => ⟨"LD_Vx__Vy", 0xF00F, 0x8000⟩
  | .orReg _ _ => ⟨"OR_Vx__Vy", 0xF00F, 0x8001⟩
  | .andReg _ _ => ⟨"AND_Vx__Vy", 0xF00F, 0x8002⟩
  | .xorReg _ _ => ⟨"XOR_Vx__Vy", 0xF00F, 0x8003⟩
  | .addReg _ _ => ⟨"ADD_Vx__Vy", 0xF00F, 0x8004⟩
  | .subReg _ _ => ⟨"SUB_Vx__Vy", 0xF00F, 0x8005⟩
  | .shr _ _ => ⟨"SHR_Vx__Vy", 0xF00F, 0x8006⟩
  | .subn _ _ => ⟨"SUBN_Vx__Vy", 0xF00F, 0x8007⟩
  | .shl _ _ => ⟨"SHL_Vx__Vy", 0xF00F, 0x800E⟩
  | .sneReg _ _ => ⟨"SNE_Vx__Vy", 0xF00F, 0x9000⟩
  | .ldI _ => ⟨"LD_I__NNN", 0xF000, 0xA000⟩
  | .jpV0 _ => ⟨"JP_V0__NNN", 0xF000, 0xB000⟩
  | .rnd _ _ => ⟨"RND_Vx__NN", 0xF000, 0xC000⟩
  | .drw _ _ _ => ⟨"DRW_Vx__Vy__N", 0xF000, 0xD000⟩
  | .skp _ => ⟨"SKP_Vx", 0xF0FF, 0xE09E⟩
  | .sknp _ => ⟨"SKNP_Vx", 0xF0FF, 0xE0A1⟩
  | .ldVxDt _ => ⟨"LD_Vx__DT", 0xF0FF, 0xF007⟩
  | .ldVxK _ => ⟨"LD_Vx__K", 0xF0FF, 0xF00A⟩
  | .ldDtVx _ => ⟨"LD_DT__Vx", 0xF0FF, 0xF015⟩
  | .ldStVx _ => ⟨"LD_ST__Vx", 0xF0FF, 0xF018⟩
  | .addI _ => ⟨"ADD_I__Vx", 0xF0FF, 0xF01E⟩
  | .ldF _ => ⟨"LD_F__Vx", 0xF0FF, 0xF029⟩
  | .ldB _ => ⟨"LD_B__Vx", 0xF0FF, 0xF033⟩
  | .storeRegs _ => ⟨"LD__I___Vx", 0xF0FF, 0xF055⟩
  | .loadRegs _ => ⟨"LD_Vx___I", 0xF0FF, 0xF065⟩

/-- Rows 00E0 to 5XY0, operands zero. -/
def controlRows : List Instr :=
  [.cls, .ret, .jp 0, .call 0, .seImm 0 0, .sneImm 0 0, .seReg 0 0]

/-- Rows 6XNN to 9XY0, operands zero. -/
def aluRows : List Instr :=
  [.ldImm 0 0, .addImm 0 0, .ldReg 0 0, .orReg 0 0, .andReg 0 0, .xorReg 0 0, .addReg 0 0, .subReg 0 0, .shr 0 0, .subn 0 0, .shl 0 0, .sneReg 0 0]

/-- Rows ANNN to EXA1, operands zero. -/
def indexRows : List Instr :=
  [.ldI 0, .jpV0 0, .rnd 0 0, .drw 0 0 0, .skp 0, .sknp 0]

/-- Rows FX07 to FX65, operands zero. -/
def miscRows : List Instr :=
  [.ldVxDt 0, .ldVxK 0, .ldDtVx 0, .ldStVx 0, .addI 0, .ldF 0, .ldB 0, .storeRegs 0, .loadRegs 0]

/-- One instruction for each row, in the order of R65. -/
def oneOfEachRow : List Instr := controlRows ++ aluRows ++ indexRows ++ miscRows

/-- The opcode map, 34 rows in the order of R65. -/
def opcodeTable : List OpcodeRow := oneOfEachRow.map Instr.row

/-! ### The host's entry -/

/-- The instruction the decoder reads from a table word: bit 0 of `w` is bit 0 of the one 16-bit word an
instruction has (R60), and every bit above `nbits` is 0. The word is laid out high byte first and given
to `decode`. -/
def decodeTableWord (nbits w : Nat) : Option Instr :=
  match decode (bytesOfWord (BitVec.ofNat 16 (w % 2 ^ nbits))) with
  | .ok (i, _) => some i
  | .error _ => none

end Sys2Proof
end

