-- ==== Sys2Proof/Config.lean ====
section
/-! DEFINITION. What is fixed for the machine: the sizes the source gives, the parameters of
00_scope.md section 4 that the spec leaves OPEN (opaque constants, so that no proof can see a value),
and the two constants a construction needs. -/

namespace Sys2Proof.Config

/-- MEM_SIZE, 4096 bytes (00_scope.md section 4, 20_memory.md R40). -/
abbrev memSize : Nat := 0x1000

/-- PROGRAM_START, the lowest writable address and the load address (00_scope.md section 4). -/
abbrev programStart : Nat := 0x200

/-- PC_RESET (00_scope.md section 4, 10_state.md R13: the spec's decision D5). -/
def pcReset : Word := 0x200

/-- TIMER_PERIOD less one, OPEN (00_scope.md R1, decision D7): any natural number. Log entry 2. -/
opaque timerPeriodLessOne : Nat

/-- TIMER_PERIOD, the time units in 1/60 second: any number from 1 on (00_scope.md R1). -/
def timerPeriod : Nat := timerPeriodLessOne + 1

/-- RNG_NEXT, OPEN (00_scope.md R1, 45_keypad_timer_random.md R196): from a state of the random source,
the byte it yields and the state after it. A free function; log entry 3. -/
opaque rngNext : Nat → Byte × Nat

/-- The seed drawn from outside when the host sets none at construction (70_reset_and_hazards.md R253).
A free value; log entry 3. -/
opaque entropySeed : Nat

/-- The seed of the instance `State.reset` stands for. DESIGN CHOICE, log entry 3: the spec gives none,
and since `rngNext` is free no byte follows from it. -/
def rngSeed : Nat := 0

/-- The `elapsed_time` of the Steps for which the host's turns list nothing
(93_implementation_defined.md U5): the n-th is any natural number. Free values; log entry 1. -/
opaque elapsedTime : Nat → Nat

end Sys2Proof.Config
end

