-- ==== Sys2Proof/Machine/State.lean ====
section
/-! DEFINITION. The state of the machine, all thirteen rows of 10_state.md section 1 and no other state of
the hardware (R26); beside them the model's own record of what the host does (log entry 1). Then the error
kinds a Step can end in (60_exceptions.md R210), the reasons an outcome can stop, and the state after
reset. -/

namespace Sys2Proof.Machine

/-- MEM (10_state.md R24): the bytes that differ from the reset contents, addresses strictly rising
(`Memory.wf` in Ops.lean). -/
abbrev Memory := List Host.Cell

/-- FB (10_state.md R23): 32 rows counted from the top, each of 64 pixels counted from the left. -/
abbrev Framebuffer := Vector (Vector Bool 64) 32

/-- Q, the quirks register (10_state.md R27): for each bit, true is legacy. -/
structure Quirks where
  shiftLegacy : Bool
  jumpLegacy : Bool
  memLegacy : Bool
deriving DecidableEq, Repr

/-- The default quirks: shift modern, offset-jump legacy, store and load modern (R27). -/
def Quirks.default : Quirks := ⟨false, true, false⟩

/-- Which field of Q a SetQuirk writes (60_exceptions.md R234). -/
inductive QuirkField where
  | shift | jump | mem
deriving DecidableEq, Repr

/-- The host transactions other than Step (00_scope.md R3). A key id is any number: R232 names the failure
of one above 15. -/
inductive HostCall where
  /-- Reset, 70_reset_and_hazards.md R250 -/
  | reset
  /-- LoadProgram, 70_reset_and_hazards.md R252 -/
  | loadProgram (bytes : List Byte)
  /-- KeyPress, 60_exceptions.md R230 -/
  | keyPress (id : Nat)
  /-- KeyRelease, 60_exceptions.md R231 -/
  | keyRelease (id : Nat)
  /-- SetQuirk, 60_exceptions.md R234 -/
  | setQuirk (which : QuirkField) (value : Bool)
deriving DecidableEq, Repr

/-- One turn of the host: the calls it makes before a Step, in order, and the `elapsed_time` it gives that
Step (00_scope.md R3, 40_step_cycle.md R80). -/
structure HostTurn where
  calls : List HostCall
  elapsed : Nat
deriving DecidableEq, Repr

/-- The state (10_state.md section 1). `host` and `turn` are the model's own: the inputs to come (log
entry 1). -/
structure State where
  /-- V[0..15] (R10) -/
  v : Vector Byte 16
  /-- PC (R13) -/
  pc : Word
  /-- I (R16) -/
  index : Word
  /-- STACK[0..15] (R18) -/
  stack : Vector Word 16
  /-- SP, the depth, 0 to 16 (R19) -/
  sp : Fin 17
  /-- DT (R20) -/
  dt : Byte
  /-- ST (R20) -/
  st : Byte
  /-- ACC, in time units (R21) -/
  acc : Nat
  /-- KEY[0..15], true is pressed (R22) -/
  keys : Vector Bool 16
  /-- FB[0..31][0..63] (R23) -/
  fb : Framebuffer
  /-- MEM[0..0xFFF] (R24) -/
  mem : Memory
  /-- RNG (R25); RNG_STATE is a plain number (log entry 3) -/
  rng : Nat
  /-- Q (R27) -/
  quirks : Quirks
  /-- The host's turns to come, the next first; the model's own (log entry 1) -/
  host : List HostTurn
  /-- The number of Steps run with no turn listed; the model's own (log entry 1) -/
  turn : Nat
deriving DecidableEq, Repr

/-- The five error kinds of a Step (60_exceptions.md R210). -/
inductive ErrorKind where
  | outOfBoundsRead | reservedWrite | stackOverflow | stackUnderflow | unknownOpcode
deriving DecidableEq, Repr

/-- Why a Step ends in an error: the kind (R210), with the state the error leaves (R215), from which the
host may go on (R216; `transact` does). Safe, all five: the hardware reports the same error with the same
state, and a run that stops here loses only what the host might do next (log entry 4). -/
inductive Fault where
  /-- Raised by the fetch check, DRW, LD Vx,[I], LD B and LD [I] on a range past 0xFFF (R210). Safe. -/
  | outOfBoundsRead (after : State)
  /-- Raised by LD B and LD [I] on a range that starts below 0x200 (R210). Safe. -/
  | reservedWrite (after : State)
  /-- Raised by CALL at depth 16 (41_control_flow.md R101). Safe. -/
  | stackOverflow (after : State)
  /-- Raised by RET at depth 0 (41_control_flow.md R103). Safe. -/
  | stackUnderflow (after : State)
  /-- Raised at dispatch by a word that is no instruction (40_step_cycle.md R86). Safe. -/
  | unknownOpcode (after : State)
deriving DecidableEq, Repr

/-- Why an instruction is refused. -/
inductive Refusal where
  /-- An instruction without a meaning in this model; no arm of `exec` answers it. Safe. -/
  | notModelled (mnemonic : String)
deriving DecidableEq, Repr

/-- The kind of an error (R211: all it carries). -/
def Fault.kind : Fault → ErrorKind
  | .outOfBoundsRead _ => .outOfBoundsRead
  | .reservedWrite _ => .reservedWrite
  | .stackOverflow _ => .stackOverflow
  | .stackUnderflow _ => .stackUnderflow
  | .unknownOpcode _ => .unknownOpcode

/-- The state an error leaves (R215): where a later transaction goes on (R216). -/
def Fault.after : Fault → State
  | .outOfBoundsRead s => s
  | .reservedWrite s => s
  | .stackOverflow s => s
  | .stackUnderflow s => s
  | .unknownOpcode s => s

/-- The state after construction with the default quirks, which ends in Reset (10_state.md R30,
70_reset_and_hazards.md R250, R253): every field at the value the spec gives. The seed (log entry 3) and
`host` and `turn` (log entry 1) are the model's. -/
def State.reset : State where
  v := Vector.replicate 16 0
  pc := Config.pcReset
  index := 0
  stack := Vector.replicate 16 0
  sp := 0
  dt := 0
  st := 0
  acc := 0
  keys := Vector.replicate 16 false
  fb := Vector.replicate 32 (Vector.replicate 64 false)
  mem := []
  rng := Config.rngSeed
  quirks := Quirks.default
  host := []
  turn := 0

end Sys2Proof.Machine
end

