-- ==== Sys2Proof/Machine/Glyphs.lean ====
section
/-! DEFINITION. The glyph table, 20_memory.md R47: its base, its rows per glyph and its 80 bytes. The
values are the spec's own choice (decision D3; log entry 5). -/

namespace Sys2Proof.Machine

/-- FONT_BASE (R47). -/
def fontBase : Nat := 0x050

/-- GLYPH_ROWS (R47). -/
def glyphRows : Nat := 5

/-- The rows of the glyphs 0 to 7 (R47). -/
def glyphsLow : List Byte :=
  [0xF0, 0x90, 0x90, 0x90, 0xF0] ++ [0x20, 0x60, 0x20, 0x20, 0x70] ++
  [0xF0, 0x10, 0xF0, 0x80, 0xF0] ++ [0xF0, 0x10, 0xF0, 0x10, 0xF0] ++
  [0x90, 0x90, 0xF0, 0x10, 0x10] ++ [0xF0, 0x80, 0xF0, 0x10, 0xF0] ++
  [0xF0, 0x80, 0xF0, 0x90, 0xF0] ++ [0xF0, 0x10, 0x20, 0x40, 0x40]

/-- The rows of the glyphs 8 to F (R47). -/
def glyphsHigh : List Byte :=
  [0xF0, 0x90, 0xF0, 0x90, 0xF0] ++ [0xF0, 0x90, 0xF0, 0x10, 0xF0] ++
  [0xF0, 0x90, 0xF0, 0x90, 0x90] ++ [0xE0, 0x90, 0xE0, 0x90, 0xE0] ++
  [0xF0, 0x80, 0x80, 0x80, 0xF0] ++ [0xE0, 0x90, 0x90, 0x90, 0xE0] ++
  [0xF0, 0x80, 0xF0, 0x80, 0xF0] ++ [0xF0, 0x80, 0xF0, 0x80, 0x80]

/-- GLYPH_DATA, 80 bytes, glyph d at offset 5 * d (R47). -/
def glyphData : List Byte := glyphsLow ++ glyphsHigh

/-- What a byte of memory holds after Reset, and so what an address not listed in `State.mem` reads as
(10_state.md R30): the glyph table at `fontBase`, else 0. -/
def resetByte (a : Nat) : Byte := if a < fontBase then 0 else glyphData.getD (a - fontBase) 0

end Sys2Proof.Machine
end

