-- ==== Sys2Proof/Machine/Ops.lean ====
section
/-! DEFINITION. The named operations over memory and registers: reading and writing bytes, the two guards
(20_memory.md R43, R44), raising an error (60_exceptions.md R210, R215), the register file, the call
stack (10_state.md R18, R19), the timers (R221), the sprite rasteriser (44_display.md R171), the keypad and
the random source. -/

namespace Sys2Proof.Machine

/-! ### Memory (20_memory.md R40, R52) -/

/-- The byte at an address. Addresses at or above 0x1000 do not exist (R41); the guards keep every access
below. -/
def Memory.byte : Memory → Nat → Byte
  | [], a => resetByte a
  | c :: m, a => if c.1 = a then c.2 else Memory.byte m a

/-- Put a byte in its place: before the first higher address, in place of the same one, and not listed at
all when it is what the address reads as unlisted. -/
def Memory.write : Memory → Nat → Byte → Memory
  | [], a, b => if b = resetByte a then [] else [(a, b)]
  | c :: m, a, b =>
    if c.1 < a then c :: Memory.write m a b
    else if c.1 = a then (if b = resetByte a then m else (a, b) :: m)
    else (if b = resetByte a then c :: m else (a, b) :: c :: m)

/-- MemWrite (00_scope.md section 5): bytes at consecutive addresses, in address order (20_memory.md R50). -/
def Memory.writeBytes : Memory → Nat → List Byte → Memory
  | m, _, [] => m
  | m, a, b :: bs => Memory.writeBytes (m.write a b) (a + 1) bs

/-- MemRead (00_scope.md section 5): n bytes from an address on, in address order. -/
def Memory.readBytes (m : Memory) (a n : Nat) : List Byte := (List.range n).map fun k => m.byte (a + k)

/-- The canonical form: addresses strictly rising, and no byte equal to what its address reads as unlisted. -/
def Memory.wf (m : Memory) : Bool :=
  decide (m.Pairwise fun c d => c.1 < d.1) && m.all fun c => c.2 != resetByte c.1

/-! ### Errors -/

/-- Raising an error, the one way a Step or an instruction ends in one: the kind, and the state it leaves,
which is the state it was raised in, since every check comes before the first write (60_exceptions.md R214,
R215). Nothing is saved anywhere, no mode changes and control goes to no handler (R215, R217). -/
def raise : ErrorKind → State → Host.Outcome State Fault Refusal
  | .outOfBoundsRead, s => .fault (.outOfBoundsRead s)
  | .reservedWrite, s => .fault (.reservedWrite s)
  | .stackOverflow, s => .fault (.stackOverflow s)
  | .stackUnderflow, s => .fault (.stackUnderflow s)
  | .unknownOpcode, s => .fault (.unknownOpcode s)

/-- CheckRead (20_memory.md R43): the address as it stands, the sum in unbounded integers. -/
def checkRead (addr : Word) (n : Nat) : Option ErrorKind :=
  if Config.memSize < addr.toNat + n then some .outOfBoundsRead else none

/-- CheckWrite (20_memory.md R44): the read check, and the first address against the program start. -/
def checkWrite (addr : Word) (n : Nat) : Option ErrorKind :=
  match checkRead addr n with
  | some k => some k
  | none => if addr.toNat < Config.programStart then some .reservedWrite else none

/-- An instruction behind a guard (20_memory.md R45): the guard's error in the state as it stands, or the
whole effect. -/
def guarded (check : Option ErrorKind) (s effect : State) : Host.Outcome State Fault Refusal :=
  match check with
  | some k => raise k s
  | none => .next effect

/-! ### Registers and PC -/

/-- V[r] (10_state.md R10). -/
def State.reg (s : State) (r : Reg) : Byte := s.v[r.val]

/-- V[r] <- b. -/
def State.setReg (s : State) (r : Reg) (b : Byte) : State := { s with v := s.v.set r.val b }

/-- VF <- flag, written first, then V[x] <- result (40_step_cycle.md R88): for x = 15 the result stands. -/
def State.setFlagThenReg (s : State) (flag : Byte) (x : Reg) (result : Byte) : State :=
  (s.setReg VF flag).setReg x result

/-- The +2 of a skip, not masked (10_state.md R15). -/
def State.skipIf (s : State) (c : Bool) : State := { s with pc := if c then s.pc + 2 else s.pc }

/-- The legacy advance of I by n (43_index_memory.md R154, R155), 16 bits, when the quirk is on. -/
def State.advanceIndex (s : State) (n : Nat) : State :=
  { s with index := if s.quirks.memLegacy then s.index + BitVec.ofNat 16 n else s.index }

/-- V[0] .. V[x], in order (43_index_memory.md R154). -/
def State.regsUpTo (s : State) (x : Reg) : List Byte := s.v.toList.take (x.val + 1)

/-- V[0..15] with MEM[a + k] in V[k] for k = 0 .. x; the registers above x stand (43_index_memory.md R155). -/
def State.loadedRegs (s : State) (a : Nat) (x : Reg) : Vector Byte 16 :=
  Vector.ofFn fun k => if k.val ≤ x.val then s.mem.byte (a + k.val) else s.reg k

/-- V[k] <- MEM[a + k] for k = 0 .. x (43_index_memory.md R155). -/
def State.loadRegsFrom (s : State) (a : Nat) (x : Reg) : State := { s with v := s.loadedRegs a x }

/-! ### The call stack (10_state.md R18, R19) -/

/-- Push a return address and count it, if there is room. -/
def State.push (s : State) (w : Word) : Option State :=
  if h : s.sp.val < 16 then some { s with stack := s.stack.set s.sp.val w, sp := ⟨s.sp.val + 1, by omega⟩ }
  else none

/-- Lower the depth and give the entry that was on top, if there is one; the entry is not cleared. -/
def State.pop (s : State) : Option (State × Word) :=
  if h : s.sp.val = 0 then none
  else some ({ s with sp := ⟨s.sp.val - 1, by omega⟩ }, s.stack[s.sp.val - 1]'(by omega))

/-! ### Timers (60_exceptions.md R221) -/

/-- One decrement: a timer at 0 stays at 0. -/
def countDown (t : Byte) : Byte := if t = 0 then 0 else t - 1

/-- The accumulated time reaches TIMER_PERIOD in a Step of this elapsed time. -/
def State.ticks (s : State) (elapsed : Nat) : Bool := decide (Config.timerPeriod ≤ s.acc + elapsed)

/-- TimerAdvance: at a tick both timers count down once and ACC returns to 0, the rest is discarded. -/
def State.timerAdvance (s : State) (elapsed : Nat) : State :=
  { s with
    dt := if s.ticks elapsed then countDown s.dt else s.dt
    st := if s.ticks elapsed then countDown s.st else s.st
    acc := if s.ticks elapsed then 0 else s.acc + elapsed }

/-! ### The sprite rasteriser (44_display.md R171 to R175) -/

/-- The framebuffer of a draw in progress, with the collision met so far (R172). -/
structure Canvas where
  fb : Framebuffer
  hit : Bool
deriving DecidableEq, Repr

/-- The pixel in column x of row y; off outside the screen. -/
def pixelAt (fb : Framebuffer) (y x : Nat) : Bool :=
  if h : y < 32 ∧ x < 64 then (fb[y]'h.1)[x]'h.2 else false

/-- Flip one pixel; on to off is a collision (R172); off the screen nothing happens (R175). -/
def Canvas.flip (c : Canvas) (y x : Nat) : Canvas :=
  if h : y < 32 ∧ x < 64 then
    { fb := c.fb.set y ((c.fb[y]'h.1).set x (!pixelAt c.fb y x) h.2) h.1, hit := c.hit || pixelAt c.fb y x }
  else c

/-- Pixel column k of a row byte, k = 0 the leftmost, which is bit 7 (R173). -/
def rowPixel (row : Byte) (k : Nat) : Bool := row.getLsbD (7 - k)

/-- One row of the sprite, left to right; columns past the right edge are dropped (R175). -/
def Canvas.drawRow (c : Canvas) (y x0 : Nat) (row : Byte) : Canvas :=
  (List.range 8).foldl (fun c k => if rowPixel row k then c.flip y (x0 + k) else c) c

/-- The rows of the sprite, top first; at the bottom edge the draw ends (R175). -/
def Canvas.drawRows (c : Canvas) (y x0 : Nat) : List Byte → Canvas
  | [] => c
  | row :: rows => if 32 ≤ y then c else Canvas.drawRows (c.drawRow y x0 row) (y + 1) x0 rows

/-- Every pixel off (R170). -/
def blankScreen : Framebuffer := Vector.replicate 32 (Vector.replicate 64 false)

/-! ### Keypad and random source -/

/-- KEY[k] (10_state.md R22). -/
def State.key (s : State) (k : Fin 16) : Bool := s.keys[k.val]

/-- The pressed key of least id, if any (45_keypad_timer_random.md R192). -/
def State.firstKey (s : State) : Option (Fin 16) := (List.finRange 16).find? s.key

/-- The byte Draw() yields (45_keypad_timer_random.md R196). -/
def State.drawnByte (s : State) : Byte := (Config.rngNext s.rng).1

/-- The random source after Draw() (R196). -/
def State.drawRandom (s : State) : State := { s with rng := (Config.rngNext s.rng).2 }

/-! ### Fetch (40_step_cycle.md R82) -/

/-- The two bytes at PC, as memory holds them at this moment. -/
def State.fetchBytes (s : State) : List Byte := s.mem.readBytes s.pc.toNat 2

end Sys2Proof.Machine
end

