-- ==== Sys2Proof/Machine/Operands.lean ====
section
/-! DEFINITION. How an instruction forms the values it works on, from its fields and the state when the
execute phase starts (40_step_cycle.md R88): addresses, the shifted value, the jump base, the key a register
names, a glyph's address, the decimal digits, the rows and the corner of a sprite. -/

namespace Sys2Proof.Machine

/-- zext_16(NNN) (30_encoding.md R63). -/
def addrWord (nnn : Addr) : Word := nnn.setWidth 16

/-- zext_16(b) (00_scope.md section 5). -/
def byteWord (b : Byte) : Word := b.setWidth 16

/-- The low four bits of a byte, as a number 0 to 15. -/
def lowNibble (b : Byte) : Fin 16 := (b.extractLsb' 0 4).toFin

/-- The value SHR and SHL shift: V[Y] under legacy, V[X] under modern (42_alu.md R128, R130). -/
def shiftSource (s : State) (x y : Reg) : Byte := if s.quirks.shiftLegacy then s.reg y else s.reg x

/-- The register BNNN adds: V[0] under legacy, V[X] with X = NNN[11:8] under modern (41_control_flow.md R108). -/
def jumpOffset (s : State) (nnn : Addr) : Byte :=
  if s.quirks.jumpLegacy then s.reg 0 else s.reg (regOfField (nnn.extractLsb' 8 4))

/-- The target of BNNN: the sum in 16 bits, where it cannot wrap, then its low 12 bits (R108). -/
def jumpTarget (s : State) (nnn : Addr) : Word := (addrWord nnn + byteWord (jumpOffset s nnn)) &&& 0xFFF

/-- The key a register names: its low four bits (45_keypad_timer_random.md R190). -/
def keyOf (s : State) (x : Reg) : Fin 16 := lowNibble (s.reg x)

/-- The address of a register's glyph: FONT_BASE + GLYPH_ROWS * low four bits (43_index_memory.md R152). -/
def glyphAddress (b : Byte) : Word := BitVec.ofNat 16 (fontBase + glyphRows * (lowNibble b).val)

/-- Hundreds, tens, ones (43_index_memory.md R153). -/
def bcdDigits (b : Byte) : List Byte :=
  [BitVec.ofNat 8 (b.toNat / 100), BitVec.ofNat 8 (b.toNat / 10 % 10), BitVec.ofNat 8 (b.toNat % 10)]

/-- The sprite's rows: n bytes at I, top row first (44_display.md R173). -/
def spriteRows (s : State) (n : Nibble) : List Byte := s.mem.readBytes s.index.toNat n.toNat

/-- The column a sprite starts in, V[X] mod 64 (44_display.md R174). -/
def spriteColumn (s : State) (x : Reg) : Nat := (s.reg x).toNat % 64

/-- The row a sprite starts in, V[Y] mod 32 (44_display.md R174). -/
def spriteLine (s : State) (y : Reg) : Nat := (s.reg y).toNat % 32

/-- The whole draw, from a screen with no collision yet (44_display.md R171, R172). -/
def drawSprite (s : State) (x y : Reg) (n : Nibble) : Canvas :=
  Canvas.drawRows ⟨s.fb, false⟩ (spriteLine s y) (spriteColumn s x) (spriteRows s n)

end Sys2Proof.Machine
end

