-- ==== Sys2Proof/Machine/Flags.lean ====
section
/-! DEFINITION. The values written to VF as a side effect (10_state.md R11), each 0 or 1. -/

namespace Sys2Proof.Machine

/-- A flag as a byte: 1 or 0. -/
def flagByte (b : Bool) : Byte := if b then 1 else 0

/-- Carry of the 9-bit sum (42_alu.md R126). -/
def carryFlag (a b : Byte) : Byte := flagByte (decide (255 < a.toNat + b.toNat))

/-- No borrow in a - b (42_alu.md R127, R129). -/
def noBorrowFlag (a b : Byte) : Byte := flagByte (decide (b.toNat ≤ a.toNat))

/-- The bit a right shift moves out (42_alu.md R128). -/
def shiftRightFlag (v : Byte) : Byte := flagByte (v.getLsbD 0)

/-- The bit a left shift moves out (42_alu.md R130). -/
def shiftLeftFlag (v : Byte) : Byte := flagByte (v.getLsbD 7)

/-- The 16-bit index is above 0xFFF (43_index_memory.md R151). -/
def indexFlag (i : Word) : Byte := flagByte (decide (0xFFF < i.toNat))

/-- A draw turned a pixel off (44_display.md R172). -/
def collisionFlag (c : Canvas) : Byte := flagByte c.hit

end Sys2Proof.Machine
end

