-- ==== Sys2Proof/Machine/Control.lean ====
section
/-! DEFINITION. The control-transfer instructions, 41_control_flow.md. PC already holds the address of the
instruction plus 2 (R100), so JP and CALL write an absolute target, a skip adds 2 and CALL pushes PC. -/

namespace Sys2Proof.Machine

/-- 1NNN JP (R102). -/
def execJp (nnn : Addr) (s : State) : Host.Outcome State Fault Refusal := .next { s with pc := addrWord nnn }

/-- 2NNN CALL (R101). -/
def execCall (nnn : Addr) (s : State) : Host.Outcome State Fault Refusal :=
  match s.push s.pc with
  | some t => .next { t with pc := addrWord nnn }
  | none => raise .stackOverflow s

/-- 00EE RET (R103). -/
def execRet (s : State) : Host.Outcome State Fault Refusal :=
  match s.pop with
  | some (t, w) => .next { t with pc := w }
  | none => raise .stackUnderflow s

/-- 3XNN SE (R104). -/
def execSeImm (x : Reg) (nn : Byte) (s : State) : Host.Outcome State Fault Refusal :=
  .next (s.skipIf (s.reg x == nn))

/-- 4XNN SNE (R105). -/
def execSneImm (x : Reg) (nn : Byte) (s : State) : Host.Outcome State Fault Refusal :=
  .next (s.skipIf (s.reg x != nn))

/-- 5XY0 SE (R106). -/
def execSeReg (x y : Reg) (s : State) : Host.Outcome State Fault Refusal :=
  .next (s.skipIf (s.reg x == s.reg y))

/-- 9XY0 SNE (R107). -/
def execSneReg (x y : Reg) (s : State) : Host.Outcome State Fault Refusal :=
  .next (s.skipIf (s.reg x != s.reg y))

/-- BNNN JP V0 (R108). -/
def execJpV0 (nnn : Addr) (s : State) : Host.Outcome State Fault Refusal :=
  .next { s with pc := jumpTarget s nnn }

end Sys2Proof.Machine
end

