-- ==== Sys2Proof/Machine/Display.lean ====
section
/-! DEFINITION. The display instructions, 44_display.md. -/

namespace Sys2Proof.Machine

/-- 00E0 CLS (R170). -/
def execCls (s : State) : Host.Outcome State Fault Refusal := .next { s with fb := blankScreen }

/-- DXYN DRW (R171, R172): the check covers all n rows, clipped ones too; VF is always written. -/
def execDrw (x y : Reg) (n : Nibble) (s : State) : Host.Outcome State Fault Refusal :=
  guarded (checkRead s.index n.toNat) s
    ({ s with fb := (drawSprite s x y n).fb }.setReg VF (collisionFlag (drawSprite s x y n)))

end Sys2Proof.Machine
end

