-- ==== Sys2Proof/Machine/IndexMemory.lean ====
section
/-! DEFINITION. The index-register and memory instructions, 43_index_memory.md. I is used as the 16-bit
number it is, and a guard over the whole range comes first (R156). -/

namespace Sys2Proof.Machine

/-- ANNN LD I (R150). -/
def execLdI (nnn : Addr) (s : State) : Host.Outcome State Fault Refusal := .next { s with index := addrWord nnn }

/-- FX1E ADD I (R151): I keeps the unmasked 16-bit sum, and VF is taken from it. -/
def execAddI (x : Reg) (s : State) : Host.Outcome State Fault Refusal :=
  let sum := s.index + byteWord (s.reg x)
  .next ({ s with index := sum }.setReg VF (indexFlag sum))

/-- FX29 LD F (R152). -/
def execLdF (x : Reg) (s : State) : Host.Outcome State Fault Refusal :=
  .next { s with index := glyphAddress (s.reg x) }

/-- FX33 LD B (R153). -/
def execLdB (x : Reg) (s : State) : Host.Outcome State Fault Refusal :=
  guarded (checkWrite s.index 3) s
    { s with mem := s.mem.writeBytes s.index.toNat (bcdDigits (s.reg x)) }

/-- FX55 LD [I] (R154). -/
def execStoreRegs (x : Reg) (s : State) : Host.Outcome State Fault Refusal :=
  guarded (checkWrite s.index (x.val + 1)) s
    ({ s with mem := s.mem.writeBytes s.index.toNat (s.regsUpTo x) }.advanceIndex (x.val + 1))

/-- FX65 LD Vx,[I] (R155). -/
def execLoadRegs (x : Reg) (s : State) : Host.Outcome State Fault Refusal :=
  guarded (checkRead s.index (x.val + 1)) s
    ((s.loadRegsFrom s.index.toNat x).advanceIndex (x.val + 1))

end Sys2Proof.Machine
end

