-- ==== Sys2Proof/Machine/Input.lean ====
section
/-! DEFINITION. The keypad, timer and random instructions, 45_keypad_timer_random.md. This Step's timer
advance has already happened (40_step_cycle.md R91). -/

namespace Sys2Proof.Machine

/-- EX9E SKP (R190). -/
def execSkp (x : Reg) (s : State) : Host.Outcome State Fault Refusal := .next (s.skipIf (s.key (keyOf s x)))

/-- EXA1 SKNP (R191). -/
def execSknp (x : Reg) (s : State) : Host.Outcome State Fault Refusal := .next (s.skipIf (!s.key (keyOf s x)))

/-- FX0A LD Vx,K (R192): with no key pressed, back to this instruction's own address. -/
def execLdVxK (x : Reg) (s : State) : Host.Outcome State Fault Refusal :=
  match s.firstKey with
  | none => .next { s with pc := s.pc - 2 }
  | some k => .next (s.setReg x (BitVec.ofNat 8 k.val))

/-- FX07 LD Vx,DT (R193). -/
def execLdVxDt (x : Reg) (s : State) : Host.Outcome State Fault Refusal := .next (s.setReg x s.dt)

/-- FX15 LD DT,Vx (R194); ACC is not changed. -/
def execLdDtVx (x : Reg) (s : State) : Host.Outcome State Fault Refusal := .next { s with dt := s.reg x }

/-- FX18 LD ST,Vx (R197); ACC is not changed. -/
def execLdStVx (x : Reg) (s : State) : Host.Outcome State Fault Refusal := .next { s with st := s.reg x }

/-- CXNN RND (R195): one byte is drawn whatever NN is. -/
def execRnd (x : Reg) (nn : Byte) (s : State) : Host.Outcome State Fault Refusal :=
  .next (s.drawRandom.setReg x (s.drawnByte &&& nn))

end Sys2Proof.Machine
end

