-- ==== Sys2Proof/Machine/HostPort.lean ====
section
/-! DEFINITION. The host's side of the machine: construction, the transactions other than Step, and the read
ports (00_scope.md R3, 60_exceptions.md, 70_reset_and_hazards.md). -/

namespace Sys2Proof.Machine

/-- What the host may set at construction (70_reset_and_hazards.md R253); none is the default. -/
structure Configuration where
  shiftLegacy : Option Bool
  jumpLegacy : Option Bool
  memLegacy : Option Bool
  seed : Option Nat
deriving DecidableEq, Repr

/-- The quirks of a configuration, with the defaults of 10_state.md R27. -/
def Configuration.quirks (c : Configuration) : Quirks where
  shiftLegacy := c.shiftLegacy.getD Quirks.default.shiftLegacy
  jumpLegacy := c.jumpLegacy.getD Quirks.default.jumpLegacy
  memLegacy := c.memLegacy.getD Quirks.default.memLegacy

/-- Reset (R250): everything as in `State.reset` but Q and RNG, which stay; the host's turns to come are
not the machine's and stay too. -/
def resetCall (s : State) : State :=
  { State.reset with quirks := s.quirks, rng := s.rng, host := s.host, turn := s.turn }

/-- Construction (R253): set Q and RNG, then Reset. -/
def construct (c : Configuration) : State :=
  resetCall { State.reset with quirks := c.quirks, rng := c.seed.getD Config.entropySeed }

/-- The result of a transaction (00_scope.md section 5): success, a Step's error (60_exceptions.md R210),
or the failure of a host call (R232, 70_reset_and_hazards.md R252). -/
inductive Result where
  | success
  | error (k : ErrorKind)
  | invalidKey
  | loadTooLarge
  /-- A Step that was refused; there is none, since every instruction has a meaning. -/
  | refused
deriving DecidableEq, Repr

/-- LoadProgram (R252): the bytes at 0x200 on, or nothing at all when they do not fit. -/
def loadProgram (bytes : List Byte) (s : State) : State × Result :=
  if Config.memSize < Config.programStart + bytes.length then (s, .loadTooLarge)
  else ({ s with mem := s.mem.writeBytes Config.programStart bytes }, .success)

/-- KeyPress and KeyRelease (60_exceptions.md R230, R231, R232): the level of one key. -/
def setKey (id : Nat) (pressed : Bool) (s : State) : State × Result :=
  if h : id < 16 then ({ s with keys := s.keys.set id pressed }, .success) else (s, .invalidKey)

/-- Q with one field written (60_exceptions.md R234). -/
def Quirks.set (q : Quirks) : QuirkField → Bool → Quirks
  | .shift, b => { q with shiftLegacy := b }
  | .jump, b => { q with jumpLegacy := b }
  | .mem, b => { q with memLegacy := b }

/-- A host transaction other than Step: the state after it and its result. -/
def hostCall : HostCall → State → State × Result
  | .reset, s => (resetCall s, .success)
  | .loadProgram bytes, s => loadProgram bytes s
  | .keyPress id, s => setKey id true s
  | .keyRelease id, s => setKey id false s
  | .setQuirk which value, s => ({ s with quirks := s.quirks.set which value }, .success)

/-- Several host calls in order, for their effect on the state. -/
def hostCalls (calls : List HostCall) (s : State) : State := calls.foldl (fun t c => (hostCall c t).1) s

/-- What the read ports show (60_exceptions.md R236): no port shows KEY, ACC, RNG or Q. -/
structure Ports where
  fb : Framebuffer
  v : Vector Byte 16
  index : Word
  pc : Word
  stack : Vector Word 16
  sp : Fin 17
  dt : Byte
  st : Byte
  mem : Memory
deriving DecidableEq, Repr

/-- The read ports, between transactions (R236). -/
def ports (s : State) : Ports where
  fb := s.fb
  v := s.v
  index := s.index
  pc := s.pc
  stack := s.stack
  sp := s.sp
  dt := s.dt
  st := s.st
  mem := s.mem

/-- The next-opcode port (R237): none when PC is above 0xFFE, where the spec gives no value. -/
def nextOpcode (s : State) : Option Word :=
  match checkRead s.pc 2 with
  | none => some (opcodeOfBytes (s.mem.byte s.pc.toNat) (s.mem.byte (s.pc.toNat + 1)))
  | some _ => none

end Sys2Proof.Machine
end

