-- ==== Sys2Proof/Machine/Cycle.lean ====
section
/-! DEFINITION. The Step transaction, 40_step_cycle.md R87, any transaction with its result (00_scope.md R3),
and the host's turn that comes before a Step (log entry 1). -/

namespace Sys2Proof.Machine

/-- Phases 3 and 4 of a Step: PC + 2, not masked (R83), then the timers (R84). -/
def State.advance (s : State) (elapsed : Nat) : State := { s with pc := s.pc + 2 }.timerAdvance elapsed

/-- Step(elapsed_time) (R87): the fetch check, in which nothing has changed yet (R81); the fetch (R82);
PC + 2 and the timers (R83, R84); decode and dispatch (R85, R86). -/
def stepTransaction (elapsed : Nat) (s : State) : Host.Outcome State Fault Refusal :=
  match checkRead s.pc 2 with
  | some k => raise k s
  | none =>
    match decode s.fetchBytes with
    | .ok (i, _) => exec i (s.advance elapsed)
    | .error _ => raise .unknownOpcode (s.advance elapsed)

/-- Every transaction on the hardware (00_scope.md R3). -/
inductive Transaction where
  | call (c : HostCall)
  | step (elapsed : Nat)
deriving DecidableEq, Repr

/-- The state after a transaction and its result. After an error the machine goes on from the state the
error leaves (60_exceptions.md R215, R216). -/
def transact : Transaction → State → State × Result
  | .call c, s => hostCall c s
  | .step elapsed, s =>
    match stepTransaction elapsed s with
    | .next t => (t, .success)
    | .fault f => (f.after, .error f.kind)
    | .refused _ => (s, .refused)

/-- The host's turn before a Step: its calls are made and it is off the list; with no turn listed there is
no call, and one more free elapsed time is used up. -/
def State.hostTurn (s : State) : State :=
  match s.host with
  | [] => { s with turn := s.turn + 1 }
  | t :: rest => hostCalls t.calls { s with host := rest }

/-- The `elapsed_time` of the Step to come: the host's, or a free value (93_implementation_defined.md U5). -/
def State.nextElapsed (s : State) : Nat :=
  match s.host with
  | [] => Config.elapsedTime s.turn
  | t :: _ => t.elapsed

/-- The host's turn, then its Step. -/
def runTurn (s : State) : Host.Outcome State Fault Refusal := stepTransaction s.nextElapsed s.hostTurn

/-- Turns with no call of the host's before the next Step. -/
def withoutCalls : List HostTurn → List HostTurn
  | [] => []
  | t :: rest => { t with calls := [] } :: rest

/-- A word stored where the next Step fetches: at PC where two bytes fit there, else at the program start
with PC there. The host's calls before that Step are dropped, since they could replace it. -/
def State.placeWord (s : State) (w : Word) : State :=
  let target : Word := if s.pc.toNat + 2 ≤ Config.memSize then s.pc else Config.pcReset
  { s with
    pc := target
    mem := s.mem.writeBytes target.toNat (bytesOfWord w)
    host := withoutCalls s.host }

end Sys2Proof.Machine
end

