-- ==== Sys2Proof/Machine/Step.lean ====
section
/-! DEFINITION. One step of the machine: the host's turn and its Step transaction (40_step_cycle.md R87; log
entry 1), and the placing of a word that the next step runs (log entry 7). -/

namespace Sys2Proof.Machine

/-- One step. -/
def step (s : State) : Host.Outcome State Fault Refusal := runTurn s

/-- The instruction of a table word stored where `step` fetches next: bit 0 of `w` is bit 0 of the word,
bits above `nbits` are 0. -/
def State.withFetchWord (s : State) (nbits w : Nat) : State := s.placeWord (BitVec.ofNat 16 (w % 2 ^ nbits))

end Sys2Proof.Machine
end

