-- ==== Sys2Proof/Safety.lean ====
section
/-! DEFINITION. The terms claims are made in: the parts of a state and what a change leaves alone, the
invariant that rules out states no run reaches, a step that runs, and the end of a run. -/

namespace Sys2Proof.Machine

/-- One part of the state, each register, stack entry, key, pixel and byte by itself. -/
inductive Part where
  | v (r : Reg)
  | pc
  | index
  | stackEntry (j : Fin 16)
  | sp
  | dt
  | st
  | acc
  | key (k : Fin 16)
  | pixel (y : Fin 32) (x : Fin 64)
  | mem (a : Nat)
  | rng
  | quirks
  | host
  | turn
deriving DecidableEq, Repr

/-- Two states hold the same in one part. -/
def SameAt (s t : State) : Part → Prop
  | .v r => t.reg r = s.reg r
  | .pc => t.pc = s.pc
  | .index => t.index = s.index
  | .stackEntry j => t.stack[j.val] = s.stack[j.val]
  | .sp => t.sp = s.sp
  | .dt => t.dt = s.dt
  | .st => t.st = s.st
  | .acc => t.acc = s.acc
  | .key k => t.key k = s.key k
  | .pixel y x => pixelAt t.fb y.val x.val = pixelAt s.fb y.val x.val
  | .mem a => t.mem.byte a = s.mem.byte a
  | .rng => t.rng = s.rng
  | .quirks => t.quirks = s.quirks
  | .host => t.host = s.host
  | .turn => t.turn = s.turn

/-- From s to t nothing changes outside the parts `written`: the frame of an instruction. -/
def ChangesOnly (written : Part → Prop) (s t : State) : Prop := ∀ p, ¬ written p → SameAt s t p

/-- The parts an instruction may write, read off the pseudocode of its rule (41_control_flow.md to
45_keypad_timer_random.md); PC counts from the fetch address plus 2, where the execute phase starts. -/
def Writes (i : Instr) (s : State) (p : Part) : Prop :=
  match i with
  | .cls => ∃ y x, p = .pixel y x
  | .ret => p = .pc ∨ p = .sp
  | .call _ => p = .pc ∨ p = .sp ∨ ∃ j : Fin 16, j.val = s.sp.val ∧ p = .stackEntry j
  | .jp _ | .jpV0 _ | .seImm _ _ | .sneImm _ _ | .seReg _ _ | .sneReg _ _ | .skp _ | .sknp _ => p = .pc
  | .ldImm x _ | .addImm x _ | .ldReg x _ | .orReg x _ | .andReg x _ | .xorReg x _ | .ldVxDt x => p = .v x
  | .addReg x _ | .subReg x _ | .shr x _ | .subn x _ | .shl x _ => p = .v VF ∨ p = .v x
  | .ldI _ | .ldF _ => p = .index
  | .addI _ => p = .index ∨ p = .v VF
  | .rnd x _ => p = .v x ∨ p = .rng
  | .drw _ _ _ => p = .v VF ∨ ∃ y x, p = .pixel y x
  | .ldVxK x => p = .pc ∨ p = .v x
  | .ldDtVx _ => p = .dt
  | .ldStVx _ => p = .st
  | .ldB _ => ∃ k < 3, p = .mem (s.index.toNat + k)
  | .storeRegs x => p = .index ∧ s.quirks.memLegacy = true ∨ ∃ k ≤ x.val, p = .mem (s.index.toNat + k)
  | .loadRegs x => p = .index ∧ s.quirks.memLegacy = true ∨ ∃ r : Reg, r ≤ x ∧ p = .v r

/-- The seven instructions that write VF as a side effect (10_state.md R11). -/
def writesFlag : Instr → Bool
  | .addReg _ _ | .subReg _ _ | .subn _ _ | .shr _ _ | .shl _ _ | .drw _ _ _ | .addI _ => true
  | _ => false

/-- The five instructions the quirk bits change (10_state.md R27). -/
def readsQuirks : Instr → Bool
  | .shr _ _ | .shl _ _ | .jpV0 _ | .storeRegs _ | .loadRegs _ => true
  | _ => false

/-- The cause of each error an instruction can raise (60_exceptions.md R210). -/
def RaiseCause (i : Instr) (s : State) (k : ErrorKind) : Prop :=
  match i with
  | .call _ => k = .stackOverflow ∧ s.sp.val = 16
  | .ret => k = .stackUnderflow ∧ s.sp.val = 0
  | .drw _ _ n => k = .outOfBoundsRead ∧ 0x1000 < s.index.toNat + n.toNat
  | .loadRegs x => k = .outOfBoundsRead ∧ 0x1000 < s.index.toNat + (x.val + 1)
  | .storeRegs x =>
    k = .outOfBoundsRead ∧ 0x1000 < s.index.toNat + (x.val + 1) ∨ k = .reservedWrite ∧ s.index.toNat < 0x200
  | .ldB _ => k = .outOfBoundsRead ∧ 0x1000 < s.index.toNat + 3 ∨ k = .reservedWrite ∧ s.index.toNat < 0x200
  | _ => False

/-- The sprite bit that falls on pixel (y, x) in a draw: row r = y - y0 and column c = x - x0 of the sprite,
if it has them, bit 7 - c of the byte at I + r (44_display.md R173 to R175). -/
def spriteBit (s : State) (vx vy : Byte) (n : Nibble) (y x : Nat) : Bool :=
  decide (vy.toNat % 32 ≤ y ∧ y - vy.toNat % 32 < n.toNat ∧ vx.toNat % 64 ≤ x ∧ x - vx.toNat % 64 < 8) &&
    (s.mem.byte (s.index.toNat + (y - vy.toNat % 32))).getLsbD (7 - (x - vx.toNat % 64))

/-- Every byte that is not as Reset leaves it lies at 0x200 to 0xFFF (20_memory.md R41, R48). -/
def Memory.inProgramArea (m : Memory) : Bool :=
  m.all fun c => decide (Config.programStart ≤ c.1) && decide (c.1 < Config.memSize)

/-- What holds of every state a run reaches. -/
structure State.Inv (s : State) : Prop where
  /-- Memory keeps its canonical form. -/
  memWf : s.mem.wf = true
  /-- The reserved zone and the glyph table are as Reset left them, and nothing is listed at or above 0x1000
  (20_memory.md R41, R48). -/
  memArea : s.mem.inProgramArea = true
  /-- PC is 0 to 0x1002 (10_state.md R15). -/
  pcRange : s.pc.toNat ≤ 0x1002
  /-- A stack entry is 0 or a pushed PC, at most 0x1000 (10_state.md section 1, R15). -/
  stackRange : ∀ j : Fin 16, s.stack[j.val].toNat ≤ 0x1000

/-- The invariant of a state in the execute phase, where PC is the fetch address plus 2 (10_state.md R13,
R15): between 2 and 0x1000. -/
structure State.ExecInv (s : State) : Prop where
  inv : s.Inv
  pcLow : 2 ≤ s.pc.toNat
  pcHigh : s.pc.toNat ≤ 0x1000

/-- A step that ends in success (40_step_cycle.md R89). -/
def State.Runs (s : State) : Prop := ∃ t, step s = .next t

/-- The end of a run, which the hardware does not have and a model defines (40_step_cycle.md R93): the
fetched instruction is a jump to its own address. -/
def State.atSelfJump (s : State) : Bool :=
  match nextOpcode s with
  | none => false
  | some op =>
    match decodeWord op with
    | .ok (.jp a) => addrWord a == s.pc
    | _ => false

end Sys2Proof.Machine
end

