-- ==== Sys2Proof/Certificates/Slice0/Obligations.lean ====
section
/-! DEFINITION. The statements for the provers. Each docstring names the rule or section of spec/ it
formalises. In a statement about `exec` the state is that of the execute phase: PC already holds the fetch
address plus 2 (40_step_cycle.md R83) and the timers have advanced (R84). Where a statement reads memory
after a write it assumes the canonical form, which `Obligations.StepKeepsInvariant` and
`Obligations.ResetMeetsInvariant` say every run has. -/

open Sys2Proof Sys2Proof.Machine

/-! ### Encoding -/

/-- Decoding what the encoder lays out gives the instruction back, whatever bytes follow (30_encoding.md
sections 1 to 4; the numeric patterns are the spec's decision D1). -/
def Obligations.DecodeOfEncodeIsTheInstruction : Prop :=
  ∀ (i : Instr) (rest : List Byte), decode (encodeBytes i ++ rest) = .ok (i, rest)

/-- A word that decodes has that one encoding: no bit is ignored by the decoder (30_encoding.md sections 1, 3;
decision D1). -/
def Obligations.EncodeOfDecodeIsTheWord : Prop :=
  ∀ (w : Word) (i : Instr), decodeWord w = .ok i → encode i = w

/-- The decoder accepts exactly the words a row of the opcode map covers, and answers an instruction of a row
that covers the word (30_encoding.md section 3; decision D1). -/
def Obligations.DecoderFollowsTheOpcodeMap : Prop :=
  ∀ w : Word, ((∃ i, decodeWord w = .ok i) ↔ ∃ r ∈ opcodeTable, r.covers w = true) ∧
    ∀ i, decodeWord w = .ok i → i.row.covers w = true

/-- 30_encoding.md R74: the decoder is total. -/
def Obligations.DecoderIsTotal : Prop :=
  ∀ w : Word, (∃ i, decodeWord w = .ok i) ∨ decodeWord w = .error (.unknownOpcode w)

/-- The illegal words, family by family (30_encoding.md section 5; decisions D1, D4). -/
def Obligations.IllegalWordsAreExactlyThese : Prop :=
  ∀ w : Word, decodeWord w = .error (.unknownOpcode w) ↔
    w.toNat / 4096 = 0 ∧ w ≠ 0x00E0 ∧ w ≠ 0x00EE ∨
    (w.toNat / 4096 = 5 ∨ w.toNat / 4096 = 9) ∧ w.toNat % 16 ≠ 0 ∨
    w.toNat / 4096 = 8 ∧ w.toNat % 16 ∈ [0x8, 0x9, 0xA, 0xB, 0xC, 0xD, 0xF] ∨
    w.toNat / 4096 = 0xE ∧ w.toNat % 256 ∉ [0x9E, 0xA1] ∨
    w.toNat / 4096 = 0xF ∧ w.toNat % 256 ∉ [0x07, 0x0A, 0x15, 0x18, 0x1E, 0x29, 0x33, 0x55, 0x65]

/-- A sanity check: words of 95_test_vectors.md, written out, and what they decode to. -/
def Obligations.WordsWrittenOutDecode : Prop :=
  decodeWord 0x00E0 = .ok .cls ∧ decodeWord 0xB2F0 = .ok (.jpV0 0x2F0) ∧
  decodeWord 0x8AB0 = .ok (.ldReg 0xA 0xB) ∧ decodeWord 0xD125 = .ok (.drw 1 2 5) ∧
  decodeWord 0xE59E = .ok (.skp 5) ∧ decodeWord 0xF355 = .ok (.storeRegs 3) ∧
  decodeWord 0x0000 = .error (.unknownOpcode 0x0000)

/-! ### The Step transaction -/

/-- A step runs the decoded instruction: after the host's turn, if PC is at most 0xFFE and the two bytes there
decode to i, the step is exec of i in the state with PC + 2 and the timers advanced (40_step_cycle.md
section 1), from which nothing else differs. With no turn listed the host's turn only numbers the free
elapsed time; the host's turns are the model's own (log entry 1). -/
def Obligations.StepRunsTheDecodedInstruction : Prop :=
  ∀ (s : State) (i : Instr) (rest : List Byte),
    s.hostTurn.pc.toNat ≤ 0xFFE →
    decode [s.hostTurn.mem.byte s.hostTurn.pc.toNat, s.hostTurn.mem.byte (s.hostTurn.pc.toNat + 1)] = .ok (i, rest) →
    step s = exec i (s.hostTurn.advance s.nextElapsed) ∧
    (s.hostTurn.advance s.nextElapsed).pc = s.hostTurn.pc + 2 ∧
    ChangesOnly (· ∈ [.pc, .dt, .st, .acc]) s.hostTurn (s.hostTurn.advance s.nextElapsed) ∧
    (s.host = [] → s.hostTurn = { s with turn := s.turn + 1 })

/-- The fetch check fails exactly when PC > 0xFFE; the Step then ends with OutOfBoundsRead and has changed
nothing, whatever the elapsed time, so repeating it gives the same again (40_step_cycle.md section 2, R81). That
no other Step ends in OutOfBoundsRead with PC unchanged holds because an instruction's error keeps PC + 2
(60_exceptions.md R215), which is decision D14, followed as log entry 6 says, and not R81. -/
def Obligations.FetchErrorChangesNothing : Prop :=
  ∀ (elapsed : Nat) (s : State),
    (0xFFE < s.pc.toNat ↔ ∃ f, stepTransaction elapsed s = .fault f ∧ f.kind = .outOfBoundsRead ∧ f.after.pc = s.pc) ∧
    (0xFFE < s.pc.toNat → transact (.step elapsed) s = (s, .error .outOfBoundsRead))

/-- A word that is no instruction raises UnknownOpcode after PC + 2 and the timer advance, and changes nothing
else (40_step_cycle.md section 4, 60_exceptions.md section 3; decision D14). -/
def Obligations.UnknownWordRaisesAfterTheAdvance : Prop :=
  ∀ (elapsed : Nat) (s : State) (r : DecodeReject),
    s.pc.toNat ≤ 0xFFE →
    decode [s.mem.byte s.pc.toNat, s.mem.byte (s.pc.toNat + 1)] = .error r →
    ∃ f, stepTransaction elapsed s = .fault f ∧ f.kind = .unknownOpcode ∧ f.after = s.advance elapsed ∧
      f.after.pc = s.pc + 2 ∧ ChangesOnly (· ∈ [.pc, .dt, .st, .acc]) s f.after

/-- 60_exceptions.md R214: an instruction that raises has written nothing of its own. -/
def Obligations.AnInstructionThatRaisesHasWrittenNothing : Prop :=
  ∀ (i : Instr) (s : State) (f : Fault), exec i s = .fault f → f.after = s

/-- Which instruction raises which error, and when (60_exceptions.md section 1; decision D12 for the kind of a
write past the top). -/
def Obligations.EveryErrorHasItsCause : Prop :=
  ∀ (i : Instr) (s : State) (k : ErrorKind),
    (∃ f, exec i s = .fault f ∧ f.kind = k) ↔ RaiseCause i s k

/-- A guard is evaluated for the whole range before the instruction changes anything: a failing guard stops FX33, FX55,
FX65 and DXYN with no byte, register or pixel written (20_memory.md section 2; decisions D25 for I as it stands and D13
for the range of a draw). -/
def Obligations.AFailingGuardAbortsTheWholeInstruction : Prop :=
  ∀ (x y : Reg) (n : Nibble) (s : State),
    (¬ (0x200 ≤ s.index.toNat ∧ s.index.toNat + 3 ≤ 0x1000) → ∃ f, exec (.ldB x) s = .fault f ∧ f.after = s) ∧
    (¬ (0x200 ≤ s.index.toNat ∧ s.index.toNat + (x.val + 1) ≤ 0x1000) →
      ∃ f, exec (.storeRegs x) s = .fault f ∧ f.after = s) ∧
    (¬ s.index.toNat + (x.val + 1) ≤ 0x1000 → ∃ f, exec (.loadRegs x) s = .fault f ∧ f.after = s) ∧
    (¬ s.index.toNat + n.toNat ≤ 0x1000 → ∃ f, exec (.drw x y n) s = .fault f ∧ f.after = s)

/-- A step ends in success or in an error of the spec, and is never refused (40_step_cycle.md section 5). -/
def Obligations.AStepIsNeverRefused : Prop :=
  ∀ s : State, (∃ t, step s = .next t) ∨ ∃ f, step s = .fault f

/-- After an error the machine goes on from the state the error leaves (60_exceptions.md section 4; decision
D14). -/
def Obligations.TheMachineGoesOnAfterAnError : Prop :=
  ∀ (elapsed : Nat) (s : State) (f : Fault), stepTransaction elapsed s = .fault f →
    transact (.step elapsed) s = (f.after, .error f.kind) ∧
    (f.after = s ∧ 0xFFE < s.pc.toNat ∨ f.after = s.advance elapsed ∧ s.pc.toNat ≤ 0xFFE)

/-- The timer advance as numbers: at a tick, when the accumulated time reaches TIMER_PERIOD, each timer drops by
one and stops at 0, once however large the elapsed time, and ACC returns to 0; otherwise ACC grows
(60_exceptions.md section 7; decisions D7, D8). -/
def Obligations.TimerAdvanceTicksAtMostOnce : Prop :=
  ∀ (elapsed : Nat) (s : State),
    (Config.timerPeriod ≤ s.acc + elapsed →
      (s.timerAdvance elapsed).dt.toNat = s.dt.toNat - 1 ∧ (s.timerAdvance elapsed).st.toNat = s.st.toNat - 1 ∧
      (s.timerAdvance elapsed).acc = 0) ∧
    (s.acc + elapsed < Config.timerPeriod →
      (s.timerAdvance elapsed).dt = s.dt ∧ (s.timerAdvance elapsed).st = s.st ∧
      (s.timerAdvance elapsed).acc = s.acc + elapsed) ∧
    ChangesOnly (· ∈ [.dt, .st, .acc]) s (s.timerAdvance elapsed)

/-- In a Step the tick comes before execution: FX07 reads DT after it, and what FX15 and FX18 set is not
decremented in the same Step (40_step_cycle.md section 3). -/
def Obligations.TheTickComesBeforeExecution : Prop :=
  ∀ (elapsed : Nat) (s t : State) (x : Reg) (rest : List Byte),
    stepTransaction elapsed s = .next t →
    (decode s.fetchBytes = .ok (.ldVxDt x, rest) → t.reg x = (s.timerAdvance elapsed).dt ∧ t.dt = t.reg x) ∧
    (decode s.fetchBytes = .ok (.ldDtVx x, rest) → t.dt = s.reg x) ∧
    (decode s.fetchBytes = .ok (.ldStVx x, rest) → t.st = s.reg x)

/-- A jump to its own address, the end of a run as this model defines it (40_step_cycle.md section 6): the Step
succeeds, changes nothing but the timers, and the next Step is the same. -/
def Obligations.ASelfJumpRunsForever : Prop :=
  ∀ (elapsed : Nat) (s : State), s.atSelfJump = true →
    ∃ t, stepTransaction elapsed s = .next t ∧ t.atSelfJump = true ∧ ChangesOnly (· ∈ [.dt, .st, .acc]) s t

/-! ### Whole-machine rules -/

/-- Every step keeps the invariant, in the state it gives and in the state an error leaves: memory canonical and
as Reset left it outside 0x200 to 0xFFF, PC at most 0x1002, stack entries at most 0x1000 (10_state.md sections
1, 3, 5, 20_memory.md sections 1, 3). -/
def Obligations.StepKeepsInvariant : Prop :=
  ∀ s : State, s.Inv → (∀ t, step s = .next t → t.Inv) ∧ ∀ f, step s = .fault f → f.after.Inv

/-- Every transaction keeps the invariant, whatever its result (00_scope.md section 6). -/
def Obligations.EveryTransactionKeepsInvariant : Prop :=
  ∀ (tr : Transaction) (s : State), s.Inv → (transact tr s).1.Inv

/-- The state after reset meets the invariant. -/
def Obligations.ResetMeetsInvariant : Prop := State.reset.Inv

/-- No instruction changes a byte below 0x200 or at or above 0x1000 (20_memory.md sections 1, 2), so in every
state of a run the reserved zone, the glyph table in it, reads as after Reset (section 3; the glyph bytes are
decision D3). -/
def Obligations.TheReservedZoneIsNeverWritten : Prop :=
  (∀ (i : Instr) (s t : State) (a : Nat), s.mem.wf = true → a < 0x200 ∨ 0x1000 ≤ a → exec i s = .next t →
    t.mem.byte a = s.mem.byte a) ∧
  ∀ (s : State) (a : Nat), s.Inv → a < 0x200 → s.mem.byte a = resetByte a

/-- The frame of every instruction: when it gives a next state, nothing changes outside the parts its rule
writes, every other register, byte, pixel and stack entry included (10_state.md sections 2 to 11,
41_control_flow.md to 45_keypad_timer_random.md). That RET leaves the popped stack entry as it was is decision D18
(log entry 6). -/
def Obligations.EveryInstructionWritesOnlyItsParts : Prop :=
  ∀ (i : Instr) (s t : State), s.mem.wf = true → exec i s = .next t → ChangesOnly (Writes i s) s t

/-- No instruction writes what only the host or the clock writes: ACC, KEY, Q (10_state.md sections 6, 7, 11),
nor the model's own inputs. -/
def Obligations.NoInstructionWritesTheHostsState : Prop :=
  ∀ (i : Instr) (s t : State), exec i s = .next t →
    t.acc = s.acc ∧ t.keys = s.keys ∧ t.quirks = s.quirks ∧ t.host = s.host ∧ t.turn = s.turn

/-- VF changes only by one of the seven instructions that write it as a side effect, or by one that names it as
its destination (10_state.md section 2). -/
def Obligations.OnlySevenInstructionsWriteTheFlag : Prop :=
  ∀ (i : Instr) (s t : State), exec i s = .next t → writesFlag i = false → ¬ Writes i s (.v VF) →
    t.reg VF = s.reg VF

/-- No instruction but CXNN depends on the random source (10_state.md section 10, 40_step_cycle.md section 5):
with another RNG state it gives the same, and leaves that RNG state alone. -/
def Obligations.OnlyRndReadsTheRandomSource : Prop :=
  ∀ (i : Instr) (s : State) (r : Nat), (∀ x nn, i ≠ .rnd x nn) →
    (∀ t, exec i s = .next t → exec i { s with rng := r } = .next { t with rng := r }) ∧
    ∀ f, exec i s = .fault f → ∃ g, exec i { s with rng := r } = .fault g ∧ g.kind = f.kind

/-- No instruction but the five the quirk bits select between depends on Q (10_state.md section 11). -/
def Obligations.OnlyFiveInstructionsReadTheQuirks : Prop :=
  ∀ (i : Instr) (s : State) (q : Quirks), readsQuirks i = false →
    (∀ t, exec i s = .next t → exec i { s with quirks := q } = .next { t with quirks := q }) ∧
    ∀ f, exec i s = .fault f → ∃ g, exec i { s with quirks := q } = .fault g ∧ g.kind = f.kind

/-! ### Control transfer (41_control_flow.md) -/

/-- 1NNN: PC takes NNN as it is, odd or out of fetching range included, and nothing else changes (section JP). -/
def Obligations.JumpSetsThePc : Prop :=
  ∀ (a : Addr) (s : State), ∃ t, exec (.jp a) s = .next t ∧ t.pc.toNat = a.toNat ∧ ChangesOnly (· ∈ [.pc]) s t

/-- 2NNN below depth 16: PC is pushed, the depth grows by one and PC takes NNN; at depth 16 it raises StackOverflow
with nothing written (section CALL). -/
def Obligations.CallPushesAndJumps : Prop :=
  ∀ (a : Addr) (s : State),
    (∀ j : Fin 16, s.sp.val = j.val → ∃ t, exec (.call a) s = .next t ∧ t.stack[j.val] = s.pc ∧
      t.sp.val = s.sp.val + 1 ∧ t.pc.toNat = a.toNat ∧ ChangesOnly (· ∈ [.pc, .sp, .stackEntry j]) s t) ∧
    (s.sp.val = 16 → ∃ f, exec (.call a) s = .fault f ∧ f.kind = .stackOverflow ∧ f.after = s)

/-- 00EE above depth 0: the depth drops by one, PC takes the entry there and the entry is not cleared; at depth 0 it
raises StackUnderflow with nothing written (section RET). -/
def Obligations.ReturnPopsThePc : Prop :=
  ∀ s : State,
    (∀ j : Fin 16, s.sp.val = j.val + 1 → ∃ t, exec .ret s = .next t ∧ t.pc = s.stack[j.val] ∧
      t.sp.val = j.val ∧ ChangesOnly (· ∈ [.pc, .sp]) s t) ∧
    (s.sp.val = 0 → ∃ f, exec .ret s = .fault f ∧ f.kind = .stackUnderflow ∧ f.after = s)

/-- 10_state.md R19: the depth stays 0 to 16; CALL at 16 and RET at 0 raise and leave SP and STACK unchanged, and
the depth is the number of entries, one more after a CALL and one less after a RET. -/
def Obligations.TheDepthIsNeverClamped : Prop :=
  ∀ (a : Addr) (s : State), s.sp.val ≤ 16 ∧
    (s.sp.val = 16 → ∃ f, exec (.call a) s = .fault f ∧ f.kind = .stackOverflow ∧ f.after.sp = s.sp ∧
      f.after.stack = s.stack) ∧
    (s.sp.val = 0 → ∃ f, exec .ret s = .fault f ∧ f.kind = .stackUnderflow ∧ f.after.sp = s.sp ∧
      f.after.stack = s.stack) ∧
    (s.sp.val ≠ 16 → ∃ t, exec (.call a) s = .next t ∧ t.sp.val = s.sp.val + 1) ∧
    (s.sp.val ≠ 0 → ∃ t, exec .ret s = .next t ∧ t.sp.val + 1 = s.sp.val) ∧
    State.reset.sp.val = 0

/-- A CALL and, whatever the subroutine did to PC and the registers, the RET that matches it come back to the
address after the CALL at the depth before it (sections CALL, RET). -/
def Obligations.ReturnComesBackToTheCall : Prop :=
  ∀ (a : Addr) (s t u : State), exec (.call a) s = .next t → u.stack = t.stack → u.sp = t.sp →
    ∃ w, exec .ret u = .next w ∧ w.pc = s.pc ∧ w.sp = s.sp

/-- 3XNN and 4XNN: PC grows by 2 more exactly when VX equals, or differs from, NN (sections SE Vx, NN and SNE Vx, NN). -/
def Obligations.ImmediateSkips : Prop :=
  ∀ (x : Reg) (nn : Byte) (s : State),
    (∃ t, exec (.seImm x nn) s = .next t ∧ t.pc = (if s.reg x = nn then s.pc + 2 else s.pc) ∧
      ChangesOnly (· ∈ [.pc]) s t) ∧
    ∃ t, exec (.sneImm x nn) s = .next t ∧ t.pc = (if s.reg x = nn then s.pc else s.pc + 2) ∧
      ChangesOnly (· ∈ [.pc]) s t

/-- 5XY0 and 9XY0: the same for two registers (sections SE Vx, Vy and SNE Vx, Vy). -/
def Obligations.RegisterSkips : Prop :=
  ∀ (x y : Reg) (s : State),
    (∃ t, exec (.seReg x y) s = .next t ∧ t.pc = (if s.reg x = s.reg y then s.pc + 2 else s.pc) ∧
      ChangesOnly (· ∈ [.pc]) s t) ∧
    ∃ t, exec (.sneReg x y) s = .next t ∧ t.pc = (if s.reg x = s.reg y then s.pc else s.pc + 2) ∧
      ChangesOnly (· ∈ [.pc]) s t

/-- BNNN: the sum of NNN and V0 under legacy, of NNN and V[NNN[11:8]] under modern, modulo 4096 (section JP V0, NNN;
decision D20). -/
def Obligations.JumpWithOffset : Prop :=
  ∀ (a : Addr) (s : State), ∃ t, exec (.jpV0 a) s = .next t ∧
    (s.quirks.jumpLegacy = true → t.pc.toNat = (a.toNat + (s.reg 0).toNat) % 4096) ∧
    (s.quirks.jumpLegacy = false → ∀ x : Reg, x.val = a.toNat / 256 →
      t.pc.toNat = (a.toNat + (s.reg x).toNat) % 4096) ∧
    ChangesOnly (· ∈ [.pc]) s t

/-! ### Registers and arithmetic (42_alu.md) -/

/-- 6XNN and 7XNN: VX takes NN, or the sum modulo 256, with no flag (sections LD Vx, NN and ADD Vx, NN). -/
def Obligations.ImmediateLoadAndAdd : Prop :=
  ∀ (x : Reg) (nn : Byte) (s : State),
    (∃ t, exec (.ldImm x nn) s = .next t ∧ t.reg x = nn ∧ ChangesOnly (· ∈ [.v x]) s t) ∧
    ∃ t, exec (.addImm x nn) s = .next t ∧ (t.reg x).toNat = ((s.reg x).toNat + nn.toNat) % 256 ∧
      ChangesOnly (· ∈ [.v x]) s t

/-- 8XY0 to 8XY3: VX takes VY, or the bitwise OR, AND, XOR of the two, with no flag (sections LD Vx, Vy to XOR). -/
def Obligations.RegisterMoveAndLogic : Prop :=
  ∀ (x y : Reg) (s : State),
    (∃ t, exec (.ldReg x y) s = .next t ∧ t.reg x = s.reg y ∧ ChangesOnly (· ∈ [.v x]) s t) ∧
    (∃ t, exec (.orReg x y) s = .next t ∧
      (∀ k, (t.reg x).getLsbD k = ((s.reg x).getLsbD k || (s.reg y).getLsbD k)) ∧ ChangesOnly (· ∈ [.v x]) s t) ∧
    (∃ t, exec (.andReg x y) s = .next t ∧
      (∀ k, (t.reg x).getLsbD k = ((s.reg x).getLsbD k && (s.reg y).getLsbD k)) ∧ ChangesOnly (· ∈ [.v x]) s t) ∧
    ∃ t, exec (.xorReg x y) s = .next t ∧
      (∀ k, (t.reg x).getLsbD k = ((s.reg x).getLsbD k ^^ (s.reg y).getLsbD k)) ∧ ChangesOnly (· ∈ [.v x]) s t

/-- 8XY4: the low byte of the sum in VX, the carry in VF unless X is F, where the sum stands (section ADD Vx, Vy;
decision D9). -/
def Obligations.AddSetsTheCarry : Prop :=
  ∀ (x y : Reg) (s : State), ∃ t, exec (.addReg x y) s = .next t ∧
    (t.reg x).toNat = ((s.reg x).toNat + (s.reg y).toNat) % 256 ∧
    (x ≠ VF → t.reg VF = if 255 < (s.reg x).toNat + (s.reg y).toNat then 1 else 0) ∧
    ChangesOnly (· ∈ [.v x, .v VF]) s t

/-- 8XY5 and 8XY7: the difference modulo 256 in VX, 1 in VF for no borrow unless X is F, where the difference stands
(sections SUB and SUBN; decision D9). -/
def Obligations.SubtractSetsNoBorrow : Prop :=
  ∀ (x y : Reg) (s : State),
    (∃ t, exec (.subReg x y) s = .next t ∧
      (t.reg x).toNat = ((s.reg x).toNat + 256 - (s.reg y).toNat) % 256 ∧
      (x ≠ VF → t.reg VF = if (s.reg y).toNat ≤ (s.reg x).toNat then 1 else 0) ∧
      ChangesOnly (· ∈ [.v x, .v VF]) s t) ∧
    ∃ t, exec (.subn x y) s = .next t ∧
      (t.reg x).toNat = ((s.reg y).toNat + 256 - (s.reg x).toNat) % 256 ∧
      (x ≠ VF → t.reg VF = if (s.reg x).toNat ≤ (s.reg y).toNat then 1 else 0) ∧
      ChangesOnly (· ∈ [.v x, .v VF]) s t

/-- 8XY6 and 8XYE: v is VY under legacy and VX under modern; VX takes v shifted by one, VF the bit shifted out unless
X is F, where the shifted value stands (sections SHR and SHL; decision D9). -/
def Obligations.ShiftsByOne : Prop :=
  ∀ (x y : Reg) (s : State) (v : Byte), v = (if s.quirks.shiftLegacy = true then s.reg y else s.reg x) →
    (∃ t, exec (.shr x y) s = .next t ∧ (t.reg x).toNat = v.toNat / 2 ∧
      (x ≠ VF → (t.reg VF).toNat = v.toNat % 2) ∧ ChangesOnly (· ∈ [.v x, .v VF]) s t) ∧
    ∃ t, exec (.shl x y) s = .next t ∧ (t.reg x).toNat = v.toNat * 2 % 256 ∧
      (x ≠ VF → (t.reg VF).toNat = v.toNat / 128) ∧ ChangesOnly (· ∈ [.v x, .v VF]) s t

/-! ### Index register and memory (43_index_memory.md) -/

/-- ANNN and FX29: I takes NNN, or the address of the glyph of the low four bits of VX, and nothing else changes
(sections LD I, NNN and LD F, Vx; the glyph base is decision D3). -/
def Obligations.IndexLoads : Prop :=
  ∀ (a : Addr) (x : Reg) (s : State),
    (∃ t, exec (.ldI a) s = .next t ∧ t.index.toNat = a.toNat ∧ ChangesOnly (· ∈ [.index]) s t) ∧
    ∃ t, exec (.ldF x) s = .next t ∧ t.index.toNat = 0x050 + 5 * ((s.reg x).toNat % 16) ∧
      ChangesOnly (· ∈ [.index]) s t

/-- FX1E: I takes the 16-bit sum, not masked to 12 bits, and VF is 1 exactly when that sum is above 0xFFF (section
ADD I, Vx; decision D10). -/
def Obligations.AddToIndexSetsTheFlag : Prop :=
  ∀ (x : Reg) (s : State), ∃ t, exec (.addI x) s = .next t ∧
    t.index.toNat = (s.index.toNat + (s.reg x).toNat) % 65536 ∧
    t.reg VF = (if 0xFFF < (s.index.toNat + (s.reg x).toNat) % 65536 then 1 else 0) ∧
    ChangesOnly (· ∈ [.index, .v VF]) s t

/-- FX33 on a writable range: hundreds, tens and ones of VX at I, I + 1, I + 2, which give the value back, and no
other byte changes (section LD B, Vx). -/
def Obligations.BcdStoresThreeDigits : Prop :=
  ∀ (x : Reg) (s : State), s.mem.wf = true → 0x200 ≤ s.index.toNat → s.index.toNat + 3 ≤ 0x1000 →
    ∃ t, exec (.ldB x) s = .next t ∧
      (t.mem.byte s.index.toNat).toNat = (s.reg x).toNat / 100 ∧
      (t.mem.byte (s.index.toNat + 1)).toNat = (s.reg x).toNat / 10 % 10 ∧
      (t.mem.byte (s.index.toNat + 2)).toNat = (s.reg x).toNat % 10 ∧
      t.mem.wf = true ∧
      ChangesOnly (· ∈ [.mem s.index.toNat, .mem (s.index.toNat + 1), .mem (s.index.toNat + 2)]) s t

/-- FX55 on a writable range: V0 to VX at I to I + X, no other byte changes, and I grows by X + 1 under legacy and
stands under modern (section LD [I], Vx; decision D23 for the width of the sum). -/
def Obligations.StoreRegistersToMemory : Prop :=
  ∀ (x : Reg) (s : State), s.mem.wf = true → 0x200 ≤ s.index.toNat → s.index.toNat + (x.val + 1) ≤ 0x1000 →
    ∃ t, exec (.storeRegs x) s = .next t ∧
      (∀ r : Reg, r ≤ x → t.mem.byte (s.index.toNat + r.val) = s.reg r) ∧
      t.index.toNat = (if s.quirks.memLegacy = true then s.index.toNat + (x.val + 1) else s.index.toNat) ∧
      t.mem.wf = true ∧
      ChangesOnly (fun p => p = .index ∨ ∃ k ≤ x.val, p = .mem (s.index.toNat + k)) s t

/-- FX65 on a readable range, the reserved zone included: V0 to VX take the bytes at I to I + X, the registers above
stand, memory is not changed, and I moves as in FX55 (section LD Vx, [I]; decision D23). -/
def Obligations.LoadRegistersFromMemory : Prop :=
  ∀ (x : Reg) (s : State), s.index.toNat + (x.val + 1) ≤ 0x1000 →
    ∃ t, exec (.loadRegs x) s = .next t ∧
      (∀ r : Reg, r ≤ x → t.reg r = s.mem.byte (s.index.toNat + r.val)) ∧
      t.index.toNat = (if s.quirks.memLegacy = true then s.index.toNat + (x.val + 1) else s.index.toNat) ∧
      ChangesOnly (fun p => p = .index ∨ ∃ r : Reg, r ≤ x ∧ p = .v r) s t

/-- Storing registers and loading as many back from the same I gives the registers back, whatever they held in
between (sections LD [I], Vx and LD Vx, [I]). -/
def Obligations.LoadingIsSymmetricWithStoring : Prop :=
  ∀ (x : Reg) (s t u : State), s.mem.wf = true → exec (.storeRegs x) s = .next t → u.mem = t.mem →
    u.index = s.index → ∃ w, exec (.loadRegs x) u = .next w ∧ ∀ r : Reg, r ≤ x → w.reg r = s.reg r

/-- A store is seen by the next fetch: FX55 at the address of the next instruction makes V0 and V1 its two bytes
(20_memory.md section 8). -/
def Obligations.AStoreIsSeenByTheNextFetch : Prop :=
  ∀ (x : Reg) (s t : State), s.mem.wf = true → s.index = s.pc → 1 ≤ x.val → exec (.storeRegs x) s = .next t →
    nextOpcode t = some (opcodeOfBytes (s.reg 0) (s.reg 1))

/-! ### Display (44_display.md) -/

/-- 00E0: every pixel is off and nothing else changes (section CLS). -/
def Obligations.ClearScreenTurnsEveryPixelOff : Prop :=
  ∀ s : State, ∃ t, exec .cls s = .next t ∧ (∀ y x, pixelAt t.fb y x = false) ∧
    ChangesOnly (fun p => ∃ y x, p = .pixel y x) s t

/-- DXYN on a readable range: every pixel is flipped exactly where a sprite bit falls on it, the start wrapped and
the rest clipped, and VF is 1 exactly when a pixel that was on has been turned off, else 0; nothing else changes
(section DRW; decisions D9 for X or Y = F and D13 for the range). -/
def Obligations.DrawFlipsTheSpritesPixels : Prop :=
  ∀ (x y : Reg) (n : Nibble) (s : State), s.index.toNat + n.toNat ≤ 0x1000 →
    ∃ t, exec (.drw x y n) s = .next t ∧
      (∀ r c, r < 32 → c < 64 →
        pixelAt t.fb r c = (pixelAt s.fb r c ^^ spriteBit s (s.reg x) (s.reg y) n r c)) ∧
      (t.reg VF = 1 ∧ (∃ r c, r < 32 ∧ c < 64 ∧ pixelAt s.fb r c = true ∧ pixelAt t.fb r c = false) ∨
        t.reg VF = 0 ∧ ∀ r c, r < 32 → c < 64 → pixelAt s.fb r c = true → pixelAt t.fb r c = true) ∧
      ChangesOnly (fun p => p = .v VF ∨ ∃ r c, p = .pixel r c) s t

/-- Drawing the same sprite again at the same coordinates gives the screen before the first draw back (section DRW,
rule R172's last example, for any screen). -/
def Obligations.DrawingTwiceRestoresTheScreen : Prop :=
  ∀ (x y : Reg) (n : Nibble) (s t : State), x ≠ VF → y ≠ VF → exec (.drw x y n) s = .next t →
    ∃ u, exec (.drw x y n) t = .next u ∧ u.fb = s.fb

/-! ### Keypad, timers, random source (45_keypad_timer_random.md) -/

/-- EX9E and EXA1: PC grows by 2 more exactly when the key of the low four bits of VX is pressed, or is not
(sections SKP and SKNP; decision D11). -/
def Obligations.KeySkips : Prop :=
  ∀ (x : Reg) (s : State) (k : Fin 16), k.val = (s.reg x).toNat % 16 →
    (∃ t, exec (.skp x) s = .next t ∧ t.pc = (if s.key k = true then s.pc + 2 else s.pc) ∧
      ChangesOnly (· ∈ [.pc]) s t) ∧
    ∃ t, exec (.sknp x) s = .next t ∧ t.pc = (if s.key k = true then s.pc else s.pc + 2) ∧
      ChangesOnly (· ∈ [.pc]) s t

/-- FX0A with a key pressed writes the least id and PC stands; with none pressed PC goes back by 2, to this
instruction, and nothing else changes (section LD Vx, K). -/
def Obligations.WaitForKeyTakesTheLeastKey : Prop :=
  ∀ (x : Reg) (s : State),
    (∀ k : Fin 16, s.key k = true → (∀ j < k, s.key j = false) →
      ∃ t, exec (.ldVxK x) s = .next t ∧ (t.reg x).toNat = k.val ∧ ChangesOnly (· ∈ [.v x]) s t) ∧
    ((∀ k, s.key k = false) → ∃ t, exec (.ldVxK x) s = .next t ∧ t.pc = s.pc - 2 ∧ ChangesOnly (· ∈ [.pc]) s t)

/-- FX07, FX15 and FX18 copy DT to VX, VX to DT, VX to ST, and change nothing else, ACC included (sections LD Vx, DT,
LD DT, Vx and LD ST, Vx). -/
def Obligations.TimersAreReadAndSet : Prop :=
  ∀ (x : Reg) (s : State),
    (∃ t, exec (.ldVxDt x) s = .next t ∧ t.reg x = s.dt ∧ ChangesOnly (· ∈ [.v x]) s t) ∧
    (∃ t, exec (.ldDtVx x) s = .next t ∧ t.dt = s.reg x ∧ ChangesOnly (· ∈ [.dt]) s t) ∧
    ∃ t, exec (.ldStVx x) s = .next t ∧ t.st = s.reg x ∧ ChangesOnly (· ∈ [.st]) s t

/-- CXNN: whatever byte the random source yields, VX takes it under the mask NN and the source moves on once, for
NN = 0 too (section RND; decision D15: the source is a parameter). -/
def Obligations.RndMasksOneDrawnByte : Prop :=
  ∀ (x : Reg) (nn : Byte) (s : State), ∃ t, exec (.rnd x nn) s = .next t ∧
    t.reg x = (Config.rngNext s.rng).1 &&& nn ∧ t.rng = (Config.rngNext s.rng).2 ∧
    ChangesOnly (· ∈ [.v x, .rng]) s t

/-! ### The host's side (60_exceptions.md, 70_reset_and_hazards.md) -/

/-- KeyPress of an id up to 15 presses that key and changes nothing else, and changes nothing at all if it is pressed
already; above 15 the result is InvalidKey and no state changes (60_exceptions.md section 8; InvalidKey is decision
D17). -/
def Obligations.KeyPressSetsOneKey : Prop :=
  ∀ (id : Nat) (s : State),
    (∀ k : Fin 16, id = k.val → (hostCall (.keyPress id) s).2 = .success ∧
      (hostCall (.keyPress id) s).1.key k = true ∧
      ChangesOnly (· ∈ [.key k]) s (hostCall (.keyPress id) s).1 ∧
      (s.key k = true → (hostCall (.keyPress id) s).1 = s)) ∧
    (15 < id → hostCall (.keyPress id) s = (s, .invalidKey))

/-- KeyRelease: the same, for releasing (60_exceptions.md section 8; InvalidKey is decision D17). -/
def Obligations.KeyReleaseClearsOneKey : Prop :=
  ∀ (id : Nat) (s : State),
    (∀ k : Fin 16, id = k.val → (hostCall (.keyRelease id) s).2 = .success ∧
      (hostCall (.keyRelease id) s).1.key k = false ∧
      ChangesOnly (· ∈ [.key k]) s (hostCall (.keyRelease id) s).1 ∧
      (s.key k = false → (hostCall (.keyRelease id) s).1 = s)) ∧
    (15 < id → hostCall (.keyRelease id) s = (s, .invalidKey))

/-- SetQuirk writes the named field of Q and changes nothing else, and the next Step goes by it: SHR by shift, BNNN
by jump, FX65 by mem (60_exceptions.md section 9, 10_state.md section 11; decisions D9, D20, D23 for what the three
instructions do). -/
def Obligations.SetQuirkActsFromTheNextStep : Prop :=
  ∀ (b : Bool) (s : State),
    hostCall (.setQuirk .shift b) s = ({ s with quirks := { s.quirks with shiftLegacy := b } }, .success) ∧
    hostCall (.setQuirk .jump b) s = ({ s with quirks := { s.quirks with jumpLegacy := b } }, .success) ∧
    hostCall (.setQuirk .mem b) s = ({ s with quirks := { s.quirks with memLegacy := b } }, .success) ∧
    ∀ (e : Nat) (x y r : Reg) (a : Addr) (rest : List Byte), s.pc.toNat ≤ 0xFFE →
      (decode s.fetchBytes = .ok (.shr x y, rest) →
        ∃ t, stepTransaction e (hostCall (.setQuirk .shift b) s).1 = .next t ∧
          (t.reg x).toNat = (if b = true then s.reg y else s.reg x).toNat / 2) ∧
      (decode s.fetchBytes = .ok (.jpV0 a, rest) → r.val = (if b = true then 0 else a.toNat / 256) →
        ∃ t, stepTransaction e (hostCall (.setQuirk .jump b) s).1 = .next t ∧
          t.pc.toNat = (a.toNat + (s.reg r).toNat) % 4096) ∧
      (decode s.fetchBytes = .ok (.loadRegs x, rest) → s.index.toNat + (x.val + 1) ≤ 0x1000 →
        ∃ t, stepTransaction e (hostCall (.setQuirk .mem b) s).1 = .next t ∧
          t.index.toNat = (if b = true then s.index.toNat + (x.val + 1) else s.index.toNat))

/-- LoadProgram copies the bytes to 0x200 on and changes nothing else; what does not fit changes nothing at all
(70_reset_and_hazards.md section 2; decision D16). -/
def Obligations.LoadProgramCopiesTheBytes : Prop :=
  ∀ (bytes : List Byte) (s : State), s.mem.wf = true →
    (bytes.length ≤ 3584 → (hostCall (.loadProgram bytes) s).2 = .success ∧
      (∀ k b, bytes[k]? = some b → (hostCall (.loadProgram bytes) s).1.mem.byte (0x200 + k) = b) ∧
      ChangesOnly (fun p => ∃ k < bytes.length, p = .mem (0x200 + k)) s (hostCall (.loadProgram bytes) s).1) ∧
    (3584 < bytes.length → hostCall (.loadProgram bytes) s = (s, .loadTooLarge))

/-- Reset: every register, timer, stack entry, key and pixel zero, PC 0x200, memory zero but for the glyph table, Q
and RNG unchanged (70_reset_and_hazards.md section 1; decisions D3, D5, D6); construction with the given or default
quirks ends in it (decision D27). -/
def Obligations.ResetLeavesTheStatedValues : Prop :=
  (∀ s : State, ∃ t, hostCall .reset s = (t, .success) ∧
    (∀ r, t.reg r = 0) ∧ t.index = 0 ∧ t.pc = 0x200 ∧ t.sp.val = 0 ∧ (∀ j : Fin 16, t.stack[j.val] = 0) ∧
    t.dt = 0 ∧ t.st = 0 ∧ t.acc = 0 ∧ (∀ k, t.key k = false) ∧ (∀ y x, pixelAt t.fb y x = false) ∧
    (∀ a, a < 0x050 ∨ 0x0A0 ≤ a → t.mem.byte a = 0) ∧
    (∀ a, 0x050 ≤ a → a < 0x0A0 → glyphData[a - 0x050]? = some (t.mem.byte a)) ∧
    t.quirks = s.quirks ∧ t.rng = s.rng) ∧
  (∀ c : Configuration, (∃ s : State, construct c = (hostCall .reset s).1) ∧
    (construct c).quirks = ⟨c.shiftLegacy.getD false, c.jumpLegacy.getD true, c.memLegacy.getD false⟩ ∧
    ∀ n, c.seed = some n → (construct c).rng = n)

/-- The next-opcode port shows the word the next Step decodes, and no value when PC is above 0xFFE
(60_exceptions.md section 9; decision D22). -/
def Obligations.NextOpcodeIsTheWordToBeDecoded : Prop :=
  ∀ (s : State) (e : Nat),
    (0xFFE < s.pc.toNat → nextOpcode s = none) ∧
    (s.pc.toNat ≤ 0xFFE → ∃ op : Word, nextOpcode s = some op ∧
      op.toNat = (s.mem.byte s.pc.toNat).toNat * 256 + (s.mem.byte (s.pc.toNat + 1)).toNat ∧
      ∀ i, decodeWord op = .ok i → stepTransaction e s = exec i (s.advance e))
end

