-- ==== Sys2Proof/Laws/Decode.lean ====
section
/-! SUPPORT. The bits of an encoded word, format by format (30_encoding.md R61), and the fields the decoder
reads from it (R62). -/

namespace Sys2Proof

theorem wordXY_getLsbD (f n : Nibble) (x y : Reg) (k : Nat) :
    (wordXY f x y n).getLsbD k =
      if k < 4 then n.getLsbD k else if k < 8 then (fieldOfReg y).getLsbD (k - 4)
      else if k < 12 then (fieldOfReg x).getLsbD (k - 8) else f.getLsbD (k - 12) := by
  unfold wordXY
  show BitVec.getLsbD (w := 4 + 4 + 4 + 4) _ k = _
  simp only [BitVec.getLsbD_append]
  split_ifs <;> first | rfl | omega

theorem wordXNN_getLsbD (f : Nibble) (x : Reg) (nn : Byte) (k : Nat) :
    (wordXNN f x nn).getLsbD k =
      if k < 8 then nn.getLsbD k
      else if k < 12 then (fieldOfReg x).getLsbD (k - 8) else f.getLsbD (k - 12) := by
  unfold wordXNN
  show BitVec.getLsbD (w := 4 + 4 + 8) _ k = _
  simp only [BitVec.getLsbD_append]
  split_ifs <;> first | rfl | omega

theorem wordNNN_getLsbD (f : Nibble) (nnn : Addr) (k : Nat) :
    (wordNNN f nnn).getLsbD k = if k < 12 then nnn.getLsbD k else f.getLsbD (k - 12) := by
  unfold wordNNN
  show BitVec.getLsbD (w := 4 + 12) _ k = _
  simp only [BitVec.getLsbD_append]

theorem opcodeOfBytes_getLsbD (hi lo : Byte) (k : Nat) :
    (opcodeOfBytes hi lo).getLsbD k = if k < 8 then lo.getLsbD k else hi.getLsbD (k - 8) := by
  unfold opcodeOfBytes
  show BitVec.getLsbD (w := 8 + 8) _ k = _
  simp only [BitVec.getLsbD_append]

/-- Laying a word out high byte first and reading it back gives it (20_memory.md R49). -/
@[simp] theorem opcodeOfBytes_bytes (w : Word) : opcodeOfBytes (highByte w) (lowByte w) = w := by
  apply BitVec.eq_of_getLsbD_eq
  intro k hk
  rw [opcodeOfBytes_getLsbD, highByte, lowByte, BitVec.getLsbD_extractLsb', BitVec.getLsbD_extractLsb']
  interval_cases k <;> simp

@[simp] theorem regOfField_fieldOfReg (r : Reg) : regOfField (fieldOfReg r) = r := rfl

@[simp] theorem fieldOfReg_regOfField (b : Nibble) : fieldOfReg (regOfField b) = b := rfl

/-- The fields of a word of format XY; DXYN's too. -/
theorem fieldsOf_wordXY (f n : Nibble) (x y : Reg) :
    fieldsOf (wordXY f x y n) =
      ⟨f, fieldOfReg x, fieldOfReg y, n, (fieldOfReg y ++ n : BitVec (4 + 4)),
        (fieldOfReg x ++ fieldOfReg y ++ n : BitVec (4 + 4 + 4))⟩ := by
  rw [fieldsOf, Fields.mk.injEq]
  refine ⟨?_, ?_, ?_, ?_, ?_, ?_⟩ <;> apply BitVec.eq_of_getLsbD_eq <;> intro k hk <;>
    rw [BitVec.getLsbD_extractLsb', wordXY_getLsbD]
  iterate 4 interval_cases k <;> rfl
  · show _ = BitVec.getLsbD (w := 4 + 4) _ k
    rw [BitVec.getLsbD_append]
    interval_cases k <;> rfl
  · show _ = BitVec.getLsbD (w := 4 + 4 + 4) _ k
    rw [BitVec.getLsbD_append, BitVec.getLsbD_append]
    interval_cases k <;> rfl

/-- The fields F, X and NN of a word of format XNN or X. -/
theorem fieldsOf_wordXNN (f : Nibble) (x : Reg) (nn : Byte) :
    (fieldsOf (wordXNN f x nn)).f = f ∧ (fieldsOf (wordXNN f x nn)).x = fieldOfReg x ∧
      (fieldsOf (wordXNN f x nn)).nn = nn := by
  refine ⟨?_, ?_, ?_⟩ <;> apply BitVec.eq_of_getLsbD_eq <;> intro k hk <;>
    rw [fieldsOf, BitVec.getLsbD_extractLsb', wordXNN_getLsbD] <;> interval_cases k <;> rfl

/-- The fields F and NNN of a word of format NNN. -/
theorem fieldsOf_wordNNN (f : Nibble) (nnn : Addr) :
    (fieldsOf (wordNNN f nnn)).f = f ∧ (fieldsOf (wordNNN f nnn)).nnn = nnn := by
  refine ⟨?_, ?_⟩ <;> apply BitVec.eq_of_getLsbD_eq <;> intro k hk <;>
    rw [fieldsOf, BitVec.getLsbD_extractLsb', wordNNN_getLsbD] <;> interval_cases k <;> rfl

/-- The 34 rows of the opcode map share no word: any two disagree in a bit both fix (30_encoding.md R65). -/
theorem opcodeTable_disjoint : opcodeTable.Pairwise fun r q => r.disjoint q = true := by decide

end Sys2Proof
end

