-- ==== Sys2Proof/Laws/Memory.lean ====
section
/-! SUPPORT. Memory: read after write, and the canonical form and the program area that every write keeps
(20_memory.md R40, R41, R52). -/

namespace Sys2Proof.Machine.Memory

@[simp] theorem byte_nil (a : Nat) : byte [] a = resetByte a := rfl

@[simp] theorem byte_cons (c : Host.Cell) (m : Memory) (a : Nat) :
    byte (c :: m) a = if c.1 = a then c.2 else byte m a := rfl

/-- The canonical form, as its two halves. -/
theorem wf_iff (m : Memory) :
    m.wf = true ↔ m.Pairwise (fun c d => c.1 < d.1) ∧ ∀ c ∈ m, c.2 ≠ resetByte c.1 := by
  simp [wf]

/-- The program area, cell by cell. -/
theorem inProgramArea_iff (m : Memory) :
    m.inProgramArea = true ↔ ∀ c ∈ m, 0x200 ≤ c.1 ∧ c.1 < 0x1000 := by
  simp [inProgramArea]

/-- An address below every listed one reads as unlisted. -/
theorem byte_of_lt {m : Memory} {a : Nat} (h : ∀ c ∈ m, a < c.1) : m.byte a = resetByte a := by
  induction m with
  | nil => rfl
  | cons c m ih =>
    have hc := h c (by simp)
    rw [byte_cons, if_neg (by omega), ih fun d hd => h d (by simp [hd])]

/-- A cell after a write is the written one or was there before. -/
theorem mem_write {m : Memory} {a : Nat} {b : Byte} {c : Host.Cell} (h : c ∈ m.write a b) :
    c = (a, b) ∧ b ≠ resetByte a ∨ c ∈ m := by
  induction m with
  | nil => simp only [write] at h; split at h <;> simp_all
  | cons d m ih =>
    simp only [write] at h
    split_ifs at h <;> simp_all <;> grind

/-- Writing keeps the addresses strictly rising. -/
theorem write_sorted {m : Memory} (hm : m.Pairwise fun c d => c.1 < d.1) (a : Nat) (b : Byte) :
    (m.write a b).Pairwise fun c d => c.1 < d.1 := by
  induction m with
  | nil => simp only [write]; split <;> simp
  | cons d m ih =>
    rw [List.pairwise_cons] at hm
    simp only [write]
    split_ifs with h1 h2 h3 h4
    · refine List.pairwise_cons.2 ⟨fun c hc => ?_, ih hm.2⟩
      rcases mem_write hc with ⟨rfl, -⟩ | hc
      · exact h1
      · exact hm.1 c hc
    · exact hm.2
    · exact List.pairwise_cons.2 ⟨fun c hc => h2 ▸ hm.1 c hc, hm.2⟩
    · exact List.pairwise_cons.2 hm
    · refine List.pairwise_cons.2 ⟨fun c hc => ?_, List.pairwise_cons.2 hm⟩
      rcases List.mem_cons.1 hc with rfl | hc
      · show a < c.1; omega
      · have := hm.1 c hc; show a < c.1; omega

/-- Every write keeps the canonical form. -/
theorem write_wf {m : Memory} (hm : m.wf = true) (a : Nat) (b : Byte) : (m.write a b).wf = true := by
  rw [wf_iff] at hm ⊢
  refine ⟨write_sorted hm.1 a b, fun c hc => ?_⟩
  rcases mem_write hc with ⟨rfl, h⟩ | hc
  · exact h
  · exact hm.2 c hc

/-- Every byte after a write, in a memory whose addresses rise: the written one at its address, every other
as it was. -/
theorem write_byte {m : Memory} (hm : m.Pairwise fun c d => c.1 < d.1) (a : Nat) (b : Byte) (x : Nat) :
    (m.write a b).byte x = if x = a then b else m.byte x := by
  induction m with
  | nil => simp only [write]; split_ifs <;> simp_all [eq_comm]
  | cons d m ih =>
    rw [List.pairwise_cons] at hm
    have hlow : d.1 = a → Memory.byte m a = resetByte a := fun h => byte_of_lt fun c hc => h ▸ hm.1 c hc
    have hnew : ¬ d.1 < a → d.1 ≠ a → Memory.byte m a = resetByte a := fun h1 h2 =>
      byte_of_lt fun c hc => by have := hm.1 c hc; omega
    simp only [write]
    split_ifs with h1 h2 h3 h4 <;> grind [byte_cons]

/-- A write of several bytes keeps the canonical form. -/
theorem writeBytes_wf {m : Memory} (hm : m.wf = true) (a : Nat) (bs : List Byte) :
    (m.writeBytes a bs).wf = true := by
  induction bs generalizing m a with
  | nil => exact hm
  | cons b bs ih => exact ih (write_wf hm a b) (a + 1)

/-- Every byte after a write of several: the k-th written one at a + k, every other as it was. -/
theorem writeBytes_byte {m : Memory} (hm : m.wf = true) (a : Nat) (bs : List Byte) (x : Nat) :
    (m.writeBytes a bs).byte x = if a ≤ x then bs.getD (x - a) (m.byte x) else m.byte x := by
  induction bs generalizing m a with
  | nil => simp [writeBytes]
  | cons b bs ih =>
    rw [writeBytes, ih (write_wf hm a b), write_byte ((wf_iff m).1 hm).1]
    rcases Nat.lt_trichotomy x a with h | rfl | h
    · simp [show ¬ a + 1 ≤ x by omega, show ¬ a ≤ x by omega, show x ≠ a by omega]
    · simp
    · obtain ⟨k, rfl⟩ : ∃ k, x = a + 1 + k := ⟨x - (a + 1), by omega⟩
      simp [show a ≤ a + 1 + k by omega, show a + 1 + k - a = k + 1 by omega, show a + 1 + k ≠ a by omega]

/-- A byte outside a write of several is as it was. -/
theorem writeBytes_byte_outside {m : Memory} (hm : m.wf = true) {a : Nat} {bs : List Byte} {x : Nat}
    (h : x < a ∨ a + bs.length ≤ x) : (m.writeBytes a bs).byte x = m.byte x := by
  rw [writeBytes_byte hm]
  split
  · rw [List.getD_eq_default _ _ (by omega)]
  · rfl

/-- A write inside the program area stays inside it. -/
theorem write_inProgramArea {m : Memory} (hm : m.inProgramArea = true) {a : Nat} (b : Byte)
    (h : 0x200 ≤ a ∧ a < 0x1000) : (m.write a b).inProgramArea = true := by
  rw [inProgramArea_iff] at hm ⊢
  intro c hc
  rcases mem_write hc with ⟨rfl, -⟩ | hc
  · exact h
  · exact hm c hc

/-- A write of several bytes inside the program area stays inside it. -/
theorem writeBytes_inProgramArea {m : Memory} (hm : m.inProgramArea = true) {a : Nat} {bs : List Byte}
    (h : 0x200 ≤ a ∧ a + bs.length ≤ 0x1000) :
    (m.writeBytes a bs).inProgramArea = true := by
  induction bs generalizing m a with
  | nil => exact hm
  | cons b bs ih =>
    simp only [List.length_cons] at h
    exact ih (write_inProgramArea hm b ⟨h.1, by omega⟩) ⟨by omega, by omega⟩

/-- Outside the program area memory reads as Reset left it (20_memory.md R48). -/
theorem byte_of_inProgramArea {m : Memory} (hm : m.inProgramArea = true) {a : Nat}
    (h : a < 0x200 ∨ 0x1000 ≤ a) : m.byte a = resetByte a := by
  induction m with
  | nil => rfl
  | cons c m ih =>
    rw [inProgramArea_iff] at hm
    have hc := hm c (by simp)
    rw [byte_cons, if_neg (by omega), ih ((inProgramArea_iff m).2 fun d hd => hm d (by simp [hd]))]

/-- Memory after reset is in canonical form and lists nothing. -/
theorem reset_wf : State.reset.mem.wf = true := rfl

@[simp] theorem readBytes_length (m : Memory) (a n : Nat) : (m.readBytes a n).length = n := by
  simp [readBytes]

end Sys2Proof.Machine.Memory
end

