-- ==== Sys2Proof/Laws/State.lean ====
section
/-! SUPPORT. One lemma per field per named update of the state, true by rfl, so that no later proof unfolds a
record update; then what a register reads as after each. -/

namespace Sys2Proof.Machine.State

variable (s : State)

/-! `setReg` changes only v. -/

@[simp] theorem setReg_pc (r : Reg) (b : Byte) : (s.setReg r b).pc = s.pc := rfl
@[simp] theorem setReg_index (r : Reg) (b : Byte) : (s.setReg r b).index = s.index := rfl
@[simp] theorem setReg_stack (r : Reg) (b : Byte) : (s.setReg r b).stack = s.stack := rfl
@[simp] theorem setReg_sp (r : Reg) (b : Byte) : (s.setReg r b).sp = s.sp := rfl
@[simp] theorem setReg_dt (r : Reg) (b : Byte) : (s.setReg r b).dt = s.dt := rfl
@[simp] theorem setReg_st (r : Reg) (b : Byte) : (s.setReg r b).st = s.st := rfl
@[simp] theorem setReg_acc (r : Reg) (b : Byte) : (s.setReg r b).acc = s.acc := rfl
@[simp] theorem setReg_keys (r : Reg) (b : Byte) : (s.setReg r b).keys = s.keys := rfl
@[simp] theorem setReg_fb (r : Reg) (b : Byte) : (s.setReg r b).fb = s.fb := rfl
@[simp] theorem setReg_mem (r : Reg) (b : Byte) : (s.setReg r b).mem = s.mem := rfl
@[simp] theorem setReg_rng (r : Reg) (b : Byte) : (s.setReg r b).rng = s.rng := rfl
@[simp] theorem setReg_quirks (r : Reg) (b : Byte) : (s.setReg r b).quirks = s.quirks := rfl
@[simp] theorem setReg_host (r : Reg) (b : Byte) : (s.setReg r b).host = s.host := rfl
@[simp] theorem setReg_turn (r : Reg) (b : Byte) : (s.setReg r b).turn = s.turn := rfl
@[simp] theorem setReg_key (r : Reg) (b : Byte) (k : Fin 16) : (s.setReg r b).key k = s.key k := rfl

/-! `setFlagThenReg` changes only v. -/

@[simp] theorem setFlagThenReg_pc (f : Byte) (r : Reg) (b : Byte) : (s.setFlagThenReg f r b).pc = s.pc := rfl
@[simp] theorem setFlagThenReg_index (f : Byte) (r : Reg) (b : Byte) : (s.setFlagThenReg f r b).index = s.index := rfl
@[simp] theorem setFlagThenReg_stack (f : Byte) (r : Reg) (b : Byte) : (s.setFlagThenReg f r b).stack = s.stack := rfl
@[simp] theorem setFlagThenReg_sp (f : Byte) (r : Reg) (b : Byte) : (s.setFlagThenReg f r b).sp = s.sp := rfl
@[simp] theorem setFlagThenReg_dt (f : Byte) (r : Reg) (b : Byte) : (s.setFlagThenReg f r b).dt = s.dt := rfl
@[simp] theorem setFlagThenReg_st (f : Byte) (r : Reg) (b : Byte) : (s.setFlagThenReg f r b).st = s.st := rfl
@[simp] theorem setFlagThenReg_acc (f : Byte) (r : Reg) (b : Byte) : (s.setFlagThenReg f r b).acc = s.acc := rfl
@[simp] theorem setFlagThenReg_keys (f : Byte) (r : Reg) (b : Byte) : (s.setFlagThenReg f r b).keys = s.keys := rfl
@[simp] theorem setFlagThenReg_fb (f : Byte) (r : Reg) (b : Byte) : (s.setFlagThenReg f r b).fb = s.fb := rfl
@[simp] theorem setFlagThenReg_mem (f : Byte) (r : Reg) (b : Byte) : (s.setFlagThenReg f r b).mem = s.mem := rfl
@[simp] theorem setFlagThenReg_rng (f : Byte) (r : Reg) (b : Byte) : (s.setFlagThenReg f r b).rng = s.rng := rfl
@[simp] theorem setFlagThenReg_quirks (f : Byte) (r : Reg) (b : Byte) : (s.setFlagThenReg f r b).quirks = s.quirks := rfl
@[simp] theorem setFlagThenReg_host (f : Byte) (r : Reg) (b : Byte) : (s.setFlagThenReg f r b).host = s.host := rfl
@[simp] theorem setFlagThenReg_turn (f : Byte) (r : Reg) (b : Byte) : (s.setFlagThenReg f r b).turn = s.turn := rfl
@[simp] theorem setFlagThenReg_key (f : Byte) (r : Reg) (b : Byte) (k : Fin 16) : (s.setFlagThenReg f r b).key k = s.key k := rfl

/-! `skipIf` changes only pc. -/

@[simp] theorem skipIf_v (c : Bool) : (s.skipIf c).v = s.v := rfl
@[simp] theorem skipIf_index (c : Bool) : (s.skipIf c).index = s.index := rfl
@[simp] theorem skipIf_stack (c : Bool) : (s.skipIf c).stack = s.stack := rfl
@[simp] theorem skipIf_sp (c : Bool) : (s.skipIf c).sp = s.sp := rfl
@[simp] theorem skipIf_dt (c : Bool) : (s.skipIf c).dt = s.dt := rfl
@[simp] theorem skipIf_st (c : Bool) : (s.skipIf c).st = s.st := rfl
@[simp] theorem skipIf_acc (c : Bool) : (s.skipIf c).acc = s.acc := rfl
@[simp] theorem skipIf_keys (c : Bool) : (s.skipIf c).keys = s.keys := rfl
@[simp] theorem skipIf_fb (c : Bool) : (s.skipIf c).fb = s.fb := rfl
@[simp] theorem skipIf_mem (c : Bool) : (s.skipIf c).mem = s.mem := rfl
@[simp] theorem skipIf_rng (c : Bool) : (s.skipIf c).rng = s.rng := rfl
@[simp] theorem skipIf_quirks (c : Bool) : (s.skipIf c).quirks = s.quirks := rfl
@[simp] theorem skipIf_host (c : Bool) : (s.skipIf c).host = s.host := rfl
@[simp] theorem skipIf_turn (c : Bool) : (s.skipIf c).turn = s.turn := rfl
@[simp] theorem skipIf_reg (c : Bool) (q : Reg) : (s.skipIf c).reg q = s.reg q := rfl
@[simp] theorem skipIf_key (c : Bool) (k : Fin 16) : (s.skipIf c).key k = s.key k := rfl

/-! `advanceIndex` changes only index. -/

@[simp] theorem advanceIndex_v (n : Nat) : (s.advanceIndex n).v = s.v := rfl
@[simp] theorem advanceIndex_pc (n : Nat) : (s.advanceIndex n).pc = s.pc := rfl
@[simp] theorem advanceIndex_stack (n : Nat) : (s.advanceIndex n).stack = s.stack := rfl
@[simp] theorem advanceIndex_sp (n : Nat) : (s.advanceIndex n).sp = s.sp := rfl
@[simp] theorem advanceIndex_dt (n : Nat) : (s.advanceIndex n).dt = s.dt := rfl
@[simp] theorem advanceIndex_st (n : Nat) : (s.advanceIndex n).st = s.st := rfl
@[simp] theorem advanceIndex_acc (n : Nat) : (s.advanceIndex n).acc = s.acc := rfl
@[simp] theorem advanceIndex_keys (n : Nat) : (s.advanceIndex n).keys = s.keys := rfl
@[simp] theorem advanceIndex_fb (n : Nat) : (s.advanceIndex n).fb = s.fb := rfl
@[simp] theorem advanceIndex_mem (n : Nat) : (s.advanceIndex n).mem = s.mem := rfl
@[simp] theorem advanceIndex_rng (n : Nat) : (s.advanceIndex n).rng = s.rng := rfl
@[simp] theorem advanceIndex_quirks (n : Nat) : (s.advanceIndex n).quirks = s.quirks := rfl
@[simp] theorem advanceIndex_host (n : Nat) : (s.advanceIndex n).host = s.host := rfl
@[simp] theorem advanceIndex_turn (n : Nat) : (s.advanceIndex n).turn = s.turn := rfl
@[simp] theorem advanceIndex_reg (n : Nat) (q : Reg) : (s.advanceIndex n).reg q = s.reg q := rfl
@[simp] theorem advanceIndex_key (n : Nat) (k : Fin 16) : (s.advanceIndex n).key k = s.key k := rfl

/-! `loadRegsFrom` changes only v. -/

@[simp] theorem loadRegsFrom_pc (a : Nat) (x : Reg) : (s.loadRegsFrom a x).pc = s.pc := by simp only [State.loadRegsFrom]
@[simp] theorem loadRegsFrom_index (a : Nat) (x : Reg) : (s.loadRegsFrom a x).index = s.index := by simp only [State.loadRegsFrom]
@[simp] theorem loadRegsFrom_stack (a : Nat) (x : Reg) : (s.loadRegsFrom a x).stack = s.stack := by simp only [State.loadRegsFrom]
@[simp] theorem loadRegsFrom_sp (a : Nat) (x : Reg) : (s.loadRegsFrom a x).sp = s.sp := by simp only [State.loadRegsFrom]
@[simp] theorem loadRegsFrom_dt (a : Nat) (x : Reg) : (s.loadRegsFrom a x).dt = s.dt := by simp only [State.loadRegsFrom]
@[simp] theorem loadRegsFrom_st (a : Nat) (x : Reg) : (s.loadRegsFrom a x).st = s.st := by simp only [State.loadRegsFrom]
@[simp] theorem loadRegsFrom_acc (a : Nat) (x : Reg) : (s.loadRegsFrom a x).acc = s.acc := by simp only [State.loadRegsFrom]
@[simp] theorem loadRegsFrom_keys (a : Nat) (x : Reg) : (s.loadRegsFrom a x).keys = s.keys := by simp only [State.loadRegsFrom]
@[simp] theorem loadRegsFrom_fb (a : Nat) (x : Reg) : (s.loadRegsFrom a x).fb = s.fb := by simp only [State.loadRegsFrom]
@[simp] theorem loadRegsFrom_mem (a : Nat) (x : Reg) : (s.loadRegsFrom a x).mem = s.mem := by simp only [State.loadRegsFrom]
@[simp] theorem loadRegsFrom_rng (a : Nat) (x : Reg) : (s.loadRegsFrom a x).rng = s.rng := by simp only [State.loadRegsFrom]
@[simp] theorem loadRegsFrom_quirks (a : Nat) (x : Reg) : (s.loadRegsFrom a x).quirks = s.quirks := by simp only [State.loadRegsFrom]
@[simp] theorem loadRegsFrom_host (a : Nat) (x : Reg) : (s.loadRegsFrom a x).host = s.host := by simp only [State.loadRegsFrom]
@[simp] theorem loadRegsFrom_turn (a : Nat) (x : Reg) : (s.loadRegsFrom a x).turn = s.turn := by simp only [State.loadRegsFrom]
@[simp] theorem loadRegsFrom_key (a : Nat) (x : Reg) (k : Fin 16) : (s.loadRegsFrom a x).key k = s.key k := by simp only [State.loadRegsFrom, State.key]

/-! `timerAdvance` changes only dt, st, acc. -/

@[simp] theorem timerAdvance_v (e : Nat) : (s.timerAdvance e).v = s.v := rfl
@[simp] theorem timerAdvance_pc (e : Nat) : (s.timerAdvance e).pc = s.pc := rfl
@[simp] theorem timerAdvance_index (e : Nat) : (s.timerAdvance e).index = s.index := rfl
@[simp] theorem timerAdvance_stack (e : Nat) : (s.timerAdvance e).stack = s.stack := rfl
@[simp] theorem timerAdvance_sp (e : Nat) : (s.timerAdvance e).sp = s.sp := rfl
@[simp] theorem timerAdvance_keys (e : Nat) : (s.timerAdvance e).keys = s.keys := rfl
@[simp] theorem timerAdvance_fb (e : Nat) : (s.timerAdvance e).fb = s.fb := rfl
@[simp] theorem timerAdvance_mem (e : Nat) : (s.timerAdvance e).mem = s.mem := rfl
@[simp] theorem timerAdvance_rng (e : Nat) : (s.timerAdvance e).rng = s.rng := rfl
@[simp] theorem timerAdvance_quirks (e : Nat) : (s.timerAdvance e).quirks = s.quirks := rfl
@[simp] theorem timerAdvance_host (e : Nat) : (s.timerAdvance e).host = s.host := rfl
@[simp] theorem timerAdvance_turn (e : Nat) : (s.timerAdvance e).turn = s.turn := rfl
@[simp] theorem timerAdvance_reg (e : Nat) (q : Reg) : (s.timerAdvance e).reg q = s.reg q := rfl
@[simp] theorem timerAdvance_key (e : Nat) (k : Fin 16) : (s.timerAdvance e).key k = s.key k := rfl

/-! `advance` changes only pc, dt, st, acc. -/

@[simp] theorem advance_v (e : Nat) : (s.advance e).v = s.v := rfl
@[simp] theorem advance_index (e : Nat) : (s.advance e).index = s.index := rfl
@[simp] theorem advance_stack (e : Nat) : (s.advance e).stack = s.stack := rfl
@[simp] theorem advance_sp (e : Nat) : (s.advance e).sp = s.sp := rfl
@[simp] theorem advance_keys (e : Nat) : (s.advance e).keys = s.keys := rfl
@[simp] theorem advance_fb (e : Nat) : (s.advance e).fb = s.fb := rfl
@[simp] theorem advance_mem (e : Nat) : (s.advance e).mem = s.mem := rfl
@[simp] theorem advance_rng (e : Nat) : (s.advance e).rng = s.rng := rfl
@[simp] theorem advance_quirks (e : Nat) : (s.advance e).quirks = s.quirks := rfl
@[simp] theorem advance_host (e : Nat) : (s.advance e).host = s.host := rfl
@[simp] theorem advance_turn (e : Nat) : (s.advance e).turn = s.turn := rfl
@[simp] theorem advance_reg (e : Nat) (q : Reg) : (s.advance e).reg q = s.reg q := rfl
@[simp] theorem advance_key (e : Nat) (k : Fin 16) : (s.advance e).key k = s.key k := rfl

/-! `drawRandom` changes only rng. -/

@[simp] theorem drawRandom_v : s.drawRandom.v = s.v := rfl
@[simp] theorem drawRandom_pc : s.drawRandom.pc = s.pc := rfl
@[simp] theorem drawRandom_index : s.drawRandom.index = s.index := rfl
@[simp] theorem drawRandom_stack : s.drawRandom.stack = s.stack := rfl
@[simp] theorem drawRandom_sp : s.drawRandom.sp = s.sp := rfl
@[simp] theorem drawRandom_dt : s.drawRandom.dt = s.dt := rfl
@[simp] theorem drawRandom_st : s.drawRandom.st = s.st := rfl
@[simp] theorem drawRandom_acc : s.drawRandom.acc = s.acc := rfl
@[simp] theorem drawRandom_keys : s.drawRandom.keys = s.keys := rfl
@[simp] theorem drawRandom_fb : s.drawRandom.fb = s.fb := rfl
@[simp] theorem drawRandom_mem : s.drawRandom.mem = s.mem := rfl
@[simp] theorem drawRandom_quirks : s.drawRandom.quirks = s.quirks := rfl
@[simp] theorem drawRandom_host : s.drawRandom.host = s.host := rfl
@[simp] theorem drawRandom_turn : s.drawRandom.turn = s.turn := rfl
@[simp] theorem drawRandom_reg  (q : Reg) : (s.drawRandom).reg q = s.reg q := rfl
@[simp] theorem drawRandom_key  (k : Fin 16) : (s.drawRandom).key k = s.key k := rfl

/-! The changed fields. -/

@[simp] theorem skipIf_pc (c : Bool) : (s.skipIf c).pc = if c then s.pc + 2 else s.pc := rfl
@[simp] theorem advanceIndex_index (n : Nat) :
    (s.advanceIndex n).index = if s.quirks.memLegacy then s.index + BitVec.ofNat 16 n else s.index := rfl
@[simp] theorem timerAdvance_dt (e : Nat) :
    (s.timerAdvance e).dt = if s.ticks e then countDown s.dt else s.dt := rfl
@[simp] theorem timerAdvance_st (e : Nat) :
    (s.timerAdvance e).st = if s.ticks e then countDown s.st else s.st := rfl
@[simp] theorem timerAdvance_acc (e : Nat) :
    (s.timerAdvance e).acc = if s.ticks e then 0 else s.acc + e := rfl
@[simp] theorem advance_pc (e : Nat) : (s.advance e).pc = s.pc + 2 := rfl
@[simp] theorem advance_dt (e : Nat) : (s.advance e).dt = if s.ticks e then countDown s.dt else s.dt := rfl
@[simp] theorem advance_st (e : Nat) : (s.advance e).st = if s.ticks e then countDown s.st else s.st := rfl
@[simp] theorem advance_acc (e : Nat) : (s.advance e).acc = if s.ticks e then 0 else s.acc + e := rfl
@[simp] theorem drawRandom_rng : s.drawRandom.rng = (Config.rngNext s.rng).2 := rfl

/-- A register depends on the field `v` alone. -/
theorem reg_congr {s t : State} (h : t.v = s.v) (r : Reg) : t.reg r = s.reg r := by
  unfold State.reg; rw [h]

/-- Reading a register after writing one. -/
@[simp] theorem setReg_reg (r q : Reg) (b : Byte) : (s.setReg r b).reg q = if q = r then b else s.reg q := by
  simp [State.reg, State.setReg, Vector.getElem_set, Fin.ext_iff, eq_comm]

/-- Reading a register after VF and then a register were written: the later write stands. -/
@[simp] theorem setFlagThenReg_reg (f b : Byte) (x q : Reg) :
    (s.setFlagThenReg f x b).reg q = if q = x then b else if q = VF then f else s.reg q := by
  simp [State.setFlagThenReg]

/-- Reading a register after a block load. -/
@[simp] theorem loadRegsFrom_reg (a : Nat) (x q : Reg) :
    (s.loadRegsFrom a x).reg q = if q.val ≤ x.val then s.mem.byte (a + q.val) else s.reg q := by
  simp [State.reg, State.loadRegsFrom, State.loadedRegs]

end Sys2Proof.Machine.State
end

