-- ==== Sys2Proof/Laws/Ops.lean ====
section
/-! SUPPORT. For each shared operation, once, everything it can do: the guards, raising an error, the call
stack, the timers, flipping a pixel, the key search, host calls and the Step transaction. -/

namespace Sys2Proof.Machine

/-! ### Errors and guards -/

/-- Raising gives a fault, whose kind and state are the ones raised. -/
theorem raise_eq (k : ErrorKind) (s : State) :
    ∃ f : Fault, raise k s = .fault f ∧ f.kind = k ∧ f.after = s := by
  cases k <;> exact ⟨_, rfl, rfl, rfl⟩

@[simp] theorem raise_ne_next (k : ErrorKind) (s t : State) : raise k s ≠ .next t := by cases k <;> simp [raise]

@[simp] theorem raise_ne_refused (k : ErrorKind) (s : State) (r : Refusal) : raise k s ≠ .refused r := by
  cases k <;> simp [raise]

/-- A fault that was raised has the kind and the state it was raised with. -/
theorem raise_eq_fault {k : ErrorKind} {s : State} {f : Fault} (h : raise k s = .fault f) :
    f.kind = k ∧ f.after = s := by
  obtain ⟨g, hg, hk, hs⟩ := raise_eq k s
  rw [hg] at h
  cases h
  exact ⟨hk, hs⟩

/-- The read check, both ways (20_memory.md R43). -/
theorem checkRead_cases (addr : Word) (n : Nat) :
    addr.toNat + n ≤ 0x1000 ∧ checkRead addr n = none ∨
    0x1000 < addr.toNat + n ∧ checkRead addr n = some .outOfBoundsRead := by
  unfold checkRead Config.memSize
  split <;> simp_all

@[simp] theorem checkRead_eq_none_iff (addr : Word) (n : Nat) :
    checkRead addr n = none ↔ addr.toNat + n ≤ 0x1000 := by
  rcases checkRead_cases addr n with ⟨h, hc⟩ | ⟨h, hc⟩ <;> rw [hc] <;> simp <;> omega

/-- The write check, all three ways (20_memory.md R44). -/
theorem checkWrite_cases (addr : Word) (n : Nat) :
    0x200 ≤ addr.toNat ∧ addr.toNat + n ≤ 0x1000 ∧ checkWrite addr n = none ∨
    0x1000 < addr.toNat + n ∧ checkWrite addr n = some .outOfBoundsRead ∨
    addr.toNat < 0x200 ∧ addr.toNat + n ≤ 0x1000 ∧ checkWrite addr n = some .reservedWrite := by
  unfold checkWrite
  rcases checkRead_cases addr n with ⟨h, hc⟩ | ⟨h, hc⟩ <;> rw [hc]
  · by_cases hl : addr.toNat < 0x200
    · exact .inr (.inr ⟨hl, h, if_pos hl⟩)
    · exact .inl ⟨by omega, h, if_neg hl⟩
  · exact .inr (.inl ⟨h, rfl⟩)

@[simp] theorem checkWrite_eq_none_iff (addr : Word) (n : Nat) :
    checkWrite addr n = none ↔ 0x200 ≤ addr.toNat ∧ addr.toNat + n ≤ 0x1000 := by
  rcases checkWrite_cases addr n with ⟨h, h', hc⟩ | ⟨h, hc⟩ | ⟨h, h', hc⟩ <;> rw [hc] <;> simp <;> omega

/-- Behind a guard that passes an instruction has its whole effect. -/
theorem guarded_pass {c : Option ErrorKind} (h : c = none) (s t : State) : guarded c s t = .next t := by
  subst h; rfl

/-- Behind a guard that fails it raises, in the state as it was. -/
theorem guarded_fail {c : Option ErrorKind} {k : ErrorKind} (h : c = some k) (s t : State) :
    guarded c s t = raise k s := by
  subst h; rfl

/-- All a guarded instruction can answer. -/
theorem guarded_cases (c : Option ErrorKind) (s t : State) :
    c = none ∧ guarded c s t = .next t ∨ ∃ k, c = some k ∧ guarded c s t = raise k s := by
  cases c with
  | none => exact .inl ⟨rfl, rfl⟩
  | some k => exact .inr ⟨k, rfl, rfl⟩

/-- Where a guarded instruction gives a next state, the guard passed and the effect is whole. -/
theorem guarded_eq_next {c : Option ErrorKind} {s t u : State} (h : guarded c s t = .next u) : c = none ∧ u = t := by
  rcases guarded_cases c s t with ⟨hc, hg⟩ | ⟨k, -, hg⟩
  · rw [hg] at h; cases h; exact ⟨hc, rfl⟩
  · exact absurd (hg.symm.trans h) (raise_ne_next k s u)

/-- Where it gives a fault, the guard failed, with that kind, and the state is as it was. -/
theorem guarded_eq_fault {c : Option ErrorKind} {s t : State} {f : Fault} (h : guarded c s t = .fault f) :
    c = some f.kind ∧ f.after = s := by
  rcases guarded_cases c s t with ⟨-, hg⟩ | ⟨k, hc, hg⟩
  · rw [hg] at h; cases h
  · obtain ⟨hk, hs⟩ := raise_eq_fault (hg.symm.trans h)
    exact ⟨hk ▸ hc, hs⟩

/-- A guarded instruction is never refused. -/
theorem guarded_ne_refused (c : Option ErrorKind) (s t : State) (r : Refusal) : guarded c s t ≠ .refused r := by
  rcases guarded_cases c s t with ⟨-, hg⟩ | ⟨k, -, hg⟩ <;> simp [hg]

/-! ### The call stack -/

/-- A push has room below depth 16 and otherwise gives nothing (10_state.md R19). -/
theorem push_cases (s : State) (w : Word) :
    (∃ t, s.push w = some t ∧ s.sp.val < 16 ∧ t.sp.val = s.sp.val + 1 ∧
      (∀ j : Fin 16, t.stack[j.val] = if j.val = s.sp.val then w else s.stack[j.val]) ∧
      t = { s with stack := t.stack, sp := t.sp }) ∨
    s.push w = none ∧ s.sp.val = 16 := by
  unfold State.push
  split
  · rename_i h
    refine .inl ⟨_, rfl, h, rfl, fun j => ?_, rfl⟩
    simp [Vector.getElem_set, eq_comm]
  · exact .inr ⟨rfl, by omega⟩

/-- A pop gives the entry below the depth, or nothing at depth 0 (10_state.md R18, R19). -/
theorem pop_cases (s : State) :
    (∃ t, ∃ j : Fin 16, s.pop = some (t, s.stack[j.val]) ∧ j.val + 1 = s.sp.val ∧ t.sp.val = j.val ∧
      t = { s with sp := t.sp }) ∨
    s.pop = none ∧ s.sp.val = 0 := by
  unfold State.pop
  split
  · exact .inr ⟨rfl, ‹_›⟩
  · rename_i h
    exact .inl ⟨_, ⟨s.sp.val - 1, by omega⟩, rfl, by simp; omega, rfl, rfl⟩

/-! ### Timers -/

/-- One decrement as a number: it stops at 0 (60_exceptions.md R221). -/
theorem countDown_toNat (t : Byte) : (countDown t).toNat = t.toNat - 1 := by
  unfold countDown
  split
  · simp_all
  · rename_i h
    have : t.toNat ≠ 0 := fun h0 => h (BitVec.eq_of_toNat_eq (by simpa using h0))
    rw [BitVec.toNat_sub_of_le (by rw [BitVec.le_def]; simp; omega)]
    rfl

/-- A tick, in terms of the accumulator (60_exceptions.md R221). -/
@[simp] theorem ticks_iff (s : State) (e : Nat) : s.ticks e = true ↔ Config.timerPeriod ≤ s.acc + e := by
  simp [State.ticks]

/-- TIMER_PERIOD is at least 1 (00_scope.md R1). -/
theorem timerPeriod_pos : 0 < Config.timerPeriod := Nat.succ_pos _

/-! ### Pixels -/

/-- Two framebuffers with the same pixels are the same. -/
theorem fb_ext {f g : Framebuffer} (h : ∀ y x : Nat, y < 32 → x < 64 → pixelAt f y x = pixelAt g y x) : f = g := by
  apply Vector.ext
  intro y hy
  apply Vector.ext
  intro x hx
  have := h y x hy hx
  simpa [pixelAt, hy, hx] using this

/-- Flipping on the screen inverts that pixel and no other (44_display.md R171). -/
theorem flip_pixel (c : Canvas) {y x : Nat} (h : y < 32 ∧ x < 64) (v u : Nat) :
    pixelAt (c.flip y x).fb v u = if v = y ∧ u = x then !pixelAt c.fb y x else pixelAt c.fb v u := by
  unfold Canvas.flip
  rw [dif_pos h]
  unfold pixelAt
  by_cases hv : v < 32 ∧ u < 64
  · simp only [dif_pos hv, dif_pos h, Vector.getElem_set]
    by_cases hy : y = v
    · subst hy
      by_cases hx : x = u
      · subst hx; simp
      · simp [hx, Ne.symm hx]
    · simp [hy, Ne.symm hy]
  · rw [dif_neg hv, dif_neg hv, if_neg]
    rintro ⟨rfl, rfl⟩
    exact hv h

/-- Flipping on the screen meets a collision exactly when the pixel was on (44_display.md R172). -/
theorem flip_hit (c : Canvas) {y x : Nat} (h : y < 32 ∧ x < 64) :
    (c.flip y x).hit = (c.hit || pixelAt c.fb y x) := by
  simp [Canvas.flip, h]

/-- Off the screen nothing is flipped (44_display.md R175). -/
theorem flip_off (c : Canvas) {y x : Nat} (h : ¬ (y < 32 ∧ x < 64)) : c.flip y x = c := by
  simp only [Canvas.flip, dif_neg h]

/-- A blank screen has every pixel off. -/
@[simp] theorem pixelAt_blankScreen (y x : Nat) : pixelAt blankScreen y x = false := by
  simp [pixelAt, blankScreen]

/-! ### Keys -/

/-- The least pressed key, or none pressed (45_keypad_timer_random.md R192). -/
theorem firstKey_cases (s : State) :
    (∃ k : Fin 16, s.firstKey = some k ∧ s.key k = true ∧ ∀ j < k, s.key j = false) ∨
    s.firstKey = none ∧ ∀ k, s.key k = false := by
  unfold State.firstKey
  cases h : (List.finRange 16).find? s.key with
  | none =>
    refine .inr ⟨rfl, fun k => ?_⟩
    simpa using List.find?_eq_none.1 h k (List.mem_finRange k)
  | some k =>
    refine .inl ⟨k, rfl, List.find?_some h, fun j hj => ?_⟩
    obtain ⟨-, as, bs, hab, hlow⟩ := List.find?_eq_some_iff_append.1 h
    have hjm : j ∈ as := by
      have hsorted : (as ++ k :: bs).Pairwise (· < ·) := hab ▸ List.pairwise_lt_finRange 16
      have hj' : j ∈ as ++ k :: bs := hab ▸ List.mem_finRange j
      rcases List.mem_append.1 hj' with h1 | h1
      · exact h1
      · rcases List.mem_cons.1 h1 with rfl | h2
        · exact absurd hj (lt_irrefl _)
        · have := (List.pairwise_cons.1 (List.pairwise_append.1 hsorted).2.1).1 j h2
          exact absurd (lt_trans hj this) (lt_irrefl _)
    simpa using hlow j hjm

/-! ### Fetch and the Step transaction -/

/-- PC + 2 after a fetch that passed its check, without wrapping (40_step_cycle.md R83). -/
theorem advance_pc_toNat {s : State} (h : s.pc.toNat ≤ 0xFFE) (e : Nat) :
    (s.advance e).pc.toNat = s.pc.toNat + 2 := by
  rw [State.advance_pc, BitVec.toNat_add]
  simp
  omega

theorem fetchBytes_eq (s : State) :
    s.fetchBytes = [s.mem.byte s.pc.toNat, s.mem.byte (s.pc.toNat + 1)] := rfl

/-- Decoding two bytes is decoding the word they form, high byte first (20_memory.md R49). -/
theorem decode_pair (hi lo : Byte) (rest : List Byte) :
    decode (hi :: lo :: rest) =
      match decodeWord (opcodeOfBytes hi lo) with
      | .ok i => .ok (i, rest)
      | .error e => .error e := rfl

/-- All a Step transaction can do (40_step_cycle.md R87, R89): the fetch fails and nothing changes, the word
is no instruction, or the instruction runs after PC + 2 and the timer advance. -/
theorem stepTransaction_cases (e : Nat) (s : State) :
    0xFFE < s.pc.toNat ∧ stepTransaction e s = raise .outOfBoundsRead s ∨
    s.pc.toNat ≤ 0xFFE ∧ (∃ r, decode s.fetchBytes = .error r) ∧
      stepTransaction e s = raise .unknownOpcode (s.advance e) ∨
    s.pc.toNat ≤ 0xFFE ∧ ∃ i rest, decode s.fetchBytes = .ok (i, rest) ∧
      stepTransaction e s = exec i (s.advance e) := by
  unfold stepTransaction
  rcases checkRead_cases s.pc 2 with ⟨h, hc⟩ | ⟨h, hc⟩ <;> rw [hc]
  · right
    cases hd : decode s.fetchBytes with
    | error r => exact .inl ⟨by omega, ⟨r, rfl⟩, rfl⟩
    | ok p => exact .inr ⟨by omega, p.1, p.2, rfl, rfl⟩
  · exact .inl ⟨by omega, rfl⟩

end Sys2Proof.Machine
end

