-- ==== Sys2Proof/Laws/PerInstr.lean ====
section
/-! SUPPORT. Facts about every instruction as syntax, made constructor by constructor. -/

namespace Sys2Proof.Laws

/-- By the operand types every instruction is well formed (30_encoding.md R63). -/
theorem wellFormed_all (i : Instr) : i.wellFormed = true := by
  have hx : ∀ r : Reg, OperandField.fits .x r.val = true := by decide
  have hy : ∀ r : Reg, OperandField.fits .y r.val = true := by decide
  have hn : ∀ n : Nibble, OperandField.fits .n n.toNat = true := fun n => decide_eq_true n.isLt
  have hnn : ∀ k : Byte, OperandField.fits .nn k.toNat = true := fun k => decide_eq_true k.isLt
  have hnnn : ∀ a : Addr, OperandField.fits .nnn a.toNat = true := fun a => decide_eq_true a.isLt
  cases i <;> simp [Instr.wellFormed, operandsFit, Instr.operands, hx, hy, hn, hnn, hnnn]

/-- A word of format XY under the mask that fixes F and N. -/
theorem wordXY_mask (f n : Nibble) (x y : Reg) : wordXY f x y n &&& 0xF00F = wordXY f 0 0 n := by
  apply BitVec.eq_of_getLsbD_eq
  intro k hk
  rw [BitVec.getLsbD_and, wordXY_getLsbD, wordXY_getLsbD]
  interval_cases k <;> simp <;> rfl

/-- A word of format XYN under the mask that fixes F. -/
theorem wordXY_family (f n : Nibble) (x y : Reg) : wordXY f x y n &&& 0xF000 = wordXY f 0 0 0 := by
  apply BitVec.eq_of_getLsbD_eq
  intro k hk
  rw [BitVec.getLsbD_and, wordXY_getLsbD, wordXY_getLsbD]
  interval_cases k <;> simp <;> rfl

/-- A word of format XNN under the mask that fixes F. -/
theorem wordXNN_family (f : Nibble) (x : Reg) (nn : Byte) : wordXNN f x nn &&& 0xF000 = wordXNN f 0 0 := by
  apply BitVec.eq_of_getLsbD_eq
  intro k hk
  rw [BitVec.getLsbD_and, wordXNN_getLsbD, wordXNN_getLsbD]
  interval_cases k <;> simp <;> rfl

/-- A word of format X under the mask that fixes F and NN. -/
theorem wordXNN_mask (f : Nibble) (x : Reg) (nn : Byte) : wordXNN f x nn &&& 0xF0FF = wordXNN f 0 nn := by
  apply BitVec.eq_of_getLsbD_eq
  intro k hk
  rw [BitVec.getLsbD_and, wordXNN_getLsbD, wordXNN_getLsbD]
  interval_cases k <;> simp <;> rfl

/-- A word of format NNN under the mask that fixes F. -/
theorem wordNNN_family (f : Nibble) (nnn : Addr) : wordNNN f nnn &&& 0xF000 = wordNNN f 0 := by
  apply BitVec.eq_of_getLsbD_eq
  intro k hk
  rw [BitVec.getLsbD_and, wordNNN_getLsbD, wordNNN_getLsbD]
  interval_cases k <;> simp

/-- The fixed bits: the word of an instruction matches the instruction's row of the opcode map (R65). -/
def FixedBits.Statement (i : Instr) : Prop := encode i &&& i.row.mask = i.row.pattern

theorem FixedBits.cls : FixedBits.Statement (.cls) := rfl
theorem FixedBits.ret : FixedBits.Statement (.ret) := rfl
theorem FixedBits.jp (nnn : Addr) : FixedBits.Statement (.jp nnn) := wordNNN_family _ _
theorem FixedBits.call (nnn : Addr) : FixedBits.Statement (.call nnn) := wordNNN_family _ _
theorem FixedBits.seImm (x : Reg) (nn : Byte) : FixedBits.Statement (.seImm x nn) := wordXNN_family _ _ _
theorem FixedBits.sneImm (x : Reg) (nn : Byte) : FixedBits.Statement (.sneImm x nn) := wordXNN_family _ _ _
theorem FixedBits.seReg (x y : Reg) : FixedBits.Statement (.seReg x y) := wordXY_mask _ _ _ _
theorem FixedBits.ldImm (x : Reg) (nn : Byte) : FixedBits.Statement (.ldImm x nn) := wordXNN_family _ _ _
theorem FixedBits.addImm (x : Reg) (nn : Byte) : FixedBits.Statement (.addImm x nn) := wordXNN_family _ _ _
theorem FixedBits.ldReg (x y : Reg) : FixedBits.Statement (.ldReg x y) := wordXY_mask _ _ _ _
theorem FixedBits.orReg (x y : Reg) : FixedBits.Statement (.orReg x y) := wordXY_mask _ _ _ _
theorem FixedBits.andReg (x y : Reg) : FixedBits.Statement (.andReg x y) := wordXY_mask _ _ _ _
theorem FixedBits.xorReg (x y : Reg) : FixedBits.Statement (.xorReg x y) := wordXY_mask _ _ _ _
theorem FixedBits.addReg (x y : Reg) : FixedBits.Statement (.addReg x y) := wordXY_mask _ _ _ _
theorem FixedBits.subReg (x y : Reg) : FixedBits.Statement (.subReg x y) := wordXY_mask _ _ _ _
theorem FixedBits.shr (x y : Reg) : FixedBits.Statement (.shr x y) := wordXY_mask _ _ _ _
theorem FixedBits.subn (x y : Reg) : FixedBits.Statement (.subn x y) := wordXY_mask _ _ _ _
theorem FixedBits.shl (x y : Reg) : FixedBits.Statement (.shl x y) := wordXY_mask _ _ _ _
theorem FixedBits.sneReg (x y : Reg) : FixedBits.Statement (.sneReg x y) := wordXY_mask _ _ _ _
theorem FixedBits.ldI (nnn : Addr) : FixedBits.Statement (.ldI nnn) := wordNNN_family _ _
theorem FixedBits.jpV0 (nnn : Addr) : FixedBits.Statement (.jpV0 nnn) := wordNNN_family _ _
theorem FixedBits.rnd (x : Reg) (nn : Byte) : FixedBits.Statement (.rnd x nn) := wordXNN_family _ _ _
theorem FixedBits.drw (x y : Reg) (n : Nibble) : FixedBits.Statement (.drw x y n) := wordXY_family _ _ _ _
theorem FixedBits.skp (x : Reg) : FixedBits.Statement (.skp x) := wordXNN_mask _ _ _
theorem FixedBits.sknp (x : Reg) : FixedBits.Statement (.sknp x) := wordXNN_mask _ _ _
theorem FixedBits.ldVxDt (x : Reg) : FixedBits.Statement (.ldVxDt x) := wordXNN_mask _ _ _
theorem FixedBits.ldVxK (x : Reg) : FixedBits.Statement (.ldVxK x) := wordXNN_mask _ _ _
theorem FixedBits.ldDtVx (x : Reg) : FixedBits.Statement (.ldDtVx x) := wordXNN_mask _ _ _
theorem FixedBits.ldStVx (x : Reg) : FixedBits.Statement (.ldStVx x) := wordXNN_mask _ _ _
theorem FixedBits.addI (x : Reg) : FixedBits.Statement (.addI x) := wordXNN_mask _ _ _
theorem FixedBits.ldF (x : Reg) : FixedBits.Statement (.ldF x) := wordXNN_mask _ _ _
theorem FixedBits.ldB (x : Reg) : FixedBits.Statement (.ldB x) := wordXNN_mask _ _ _
theorem FixedBits.storeRegs (x : Reg) : FixedBits.Statement (.storeRegs x) := wordXNN_mask _ _ _
theorem FixedBits.loadRegs (x : Reg) : FixedBits.Statement (.loadRegs x) := wordXNN_mask _ _ _

end Sys2Proof.Laws
end

