-- ==== Sys2Proof/Tests/Slice0.lean ====
section
/-! SUPPORT. Tests with expected results from 95_test_vectors.md (the vector is named in each docstring) and from
the tables of 30_encoding.md, then a witness for each obligation that has hypotheses. -/

namespace Sys2Proof.Tests

open Sys2Proof Sys2Proof.Machine

/-! ### Helpers -/

/-- The state of the vectors' execute phase: after Reset, PC already at 0x202. -/
def start : State := { State.reset with pc := 0x202 }

/-- Some registers at given values. -/
def withRegs (l : List (Reg × Byte)) (s : State) : State := l.foldl (fun t p => t.setReg p.1 p.2) s

/-- The vectors' state with some registers and I at given values. -/
def regs (l : List (Reg × Byte)) (i : Word := 0) : State := { withRegs l start with index := i }

/-- Some bytes of memory at given values. -/
def withBytes (a : Nat) (bs : List Byte) (s : State) : State := { s with mem := s.mem.writeBytes a bs }

/-- One pixel on. -/
def withPixel (y x : Nat) (s : State) : State := { s with fb := ((⟨s.fb, false⟩ : Canvas).flip y x).fb }

/-- One key pressed. -/
def withKey (k : Nat) (s : State) : State := (hostCall (.keyPress k) s).1

/-- Quirks given as in the vectors: shift, jump, mem, true for legacy. -/
def withQuirks (a b c : Bool) (s : State) : State := { s with quirks := ⟨a, b, c⟩ }

/-- The instruction succeeds, and what it gives passes the check. -/
def gives (i : Instr) (s : State) (p : State → Bool) : Bool :=
  match exec i s with
  | .next t => p t
  | _ => false

/-- The instruction raises this error and leaves the state it started in. -/
def raises (i : Instr) (s : State) (k : ErrorKind) : Bool :=
  match exec i s with
  | .fault f => f.kind == k && f.after == s
  | _ => false

/-- The decoder refuses a word as unknown. -/
def refuses (w : Word) : Bool :=
  match decodeWord w with
  | .error (.unknownOpcode v) => v == w
  | _ => false

/-- The decoder reads a word as this instruction. -/
def reads (w : Word) (i : Instr) : Bool :=
  match decodeWord w with
  | .ok j => j == i
  | _ => false

/-! ### Well-formedness: one ill-formed number for each check, and the highest well-formed one -/

theorem test_x_too_wide : operandsFit [(.x, 16), (.nn, 0)] = false := by decide
theorem test_y_too_wide : operandsFit [(.x, 0), (.y, 16)] = false := by decide
theorem test_n_too_wide : operandsFit [(.x, 0), (.y, 0), (.n, 16)] = false := by decide
theorem test_nn_too_wide : operandsFit [(.x, 0), (.nn, 256)] = false := by decide
theorem test_nnn_too_wide : operandsFit [(.nnn, 4096)] = false := by decide
theorem test_highest_fit : operandsFit [(.x, 15), (.y, 15), (.n, 15), (.nn, 255), (.nnn, 4095)] = true := by decide
theorem test_drw_well_formed : (Instr.drw 15 15 15).wellFormed = true := by decide

/-! ### Decoding: one word for each row of 30_encoding.md R65, written out from its pattern -/

theorem test_decode_control :
    reads 0x00E0 .cls && reads 0x00EE .ret && reads 0x1ABC (.jp 0xABC) && reads 0x2300 (.call 0x300) &&
    reads 0x332A (.seImm 3 0x2A) && reads 0x4300 (.sneImm 3 0) && reads 0x5AB0 (.seReg 0xA 0xB) &&
    reads 0x9AB0 (.sneReg 0xA 0xB) && reads 0xB2F0 (.jpV0 0x2F0) = true := by decide
theorem test_decode_alu :
    reads 0x6A2F (.ldImm 0xA 0x2F) && reads 0x7105 (.addImm 1 5) && reads 0x8AB0 (.ldReg 0xA 0xB) &&
    reads 0x8121 (.orReg 1 2) && reads 0x8122 (.andReg 1 2) && reads 0x8123 (.xorReg 1 2) &&
    reads 0x8124 (.addReg 1 2) && reads 0x8125 (.subReg 1 2) && reads 0x8126 (.shr 1 2) &&
    reads 0x8127 (.subn 1 2) && reads 0x8ABE (.shl 0xA 0xB) = true := by decide
theorem test_decode_rest :
    reads 0xA2F0 (.ldI 0x2F0) && reads 0xC10F (.rnd 1 0x0F) && reads 0xD125 (.drw 1 2 5) &&
    reads 0xEA9E (.skp 0xA) && reads 0xEAA1 (.sknp 0xA) && reads 0xFA07 (.ldVxDt 0xA) && reads 0xFA0A (.ldVxK 0xA) &&
    reads 0xFA15 (.ldDtVx 0xA) && reads 0xFA18 (.ldStVx 0xA) && reads 0xFA1E (.addI 0xA) && reads 0xFA29 (.ldF 0xA) &&
    reads 0xFA33 (.ldB 0xA) && reads 0xFA55 (.storeRegs 0xA) && reads 0xFA65 (.loadRegs 0xA) = true := by decide

/-- Section 2.8, the words that raise UnknownOpcode. -/
theorem test_refused_words :
    ([0x0000, 0x00E1, 0x00FE, 0x0123, 0x0FFF, 0x5001, 0x9ABF, 0x8008, 0x8ABD, 0x8ABF, 0xE000] : List Word).all refuses &&
    ([0xE19D, 0xE1A2, 0xF000, 0xF102, 0xF108, 0xF11F, 0xF130, 0xF175, 0xF185, 0xF1FF] : List Word).all refuses
      = true := by decide

/-- 20_memory.md R49: the byte at the lower address is the high byte. -/
theorem test_first_byte_is_high : decode [0xA2, 0xF0, 0x12] = .ok (.ldI 0x2F0, [0x12]) := by rfl
theorem test_one_byte_is_truncated : decode [0xA2] = .error .truncated := by rfl
theorem test_table_word : decodeTableWord 16 0xD125 = some (.drw 1 2 5) := by decide
theorem test_table_word_refused : decodeTableWord 16 0x5121 = none := by decide
theorem test_encode_drw : encodeBytes (.drw 1 2 5) = [0xD1, 0x25] := by decide

/-! ### Control transfer (section 2.1) -/

/-- CF1. -/
theorem test_call : gives (.call 0x300) start (fun t => t.stack[0] == 0x202 && t.sp == 1 && t.pc == 0x300) = true := by
  decide
/-- CF2. -/
theorem test_call_overflow : raises (.call 0x300) { start with sp := 16 } .stackOverflow = true := by decide
/-- CF5: the popped entry stays. -/
theorem test_ret : gives .ret { start with sp := 1, stack := start.stack.set 0 0x0208 }
    (fun t => t.pc == 0x208 && t.sp == 0 && t.stack[0] == 0x208) = true := by decide
/-- CF6. -/
theorem test_ret_underflow : raises .ret start .stackUnderflow = true := by decide
/-- CF10. -/
theorem test_jp_odd : gives (.jp 0x001) start (fun t => t.pc == 0x001) = true := by decide
/-- CF11, CF12. -/
theorem test_se_imm : gives (.seImm 3 0x2A) (regs [(3, 0x2A)]) (fun t => t.pc == 0x204) &&
    gives (.seImm 3 0x2A) (regs [(3, 0x2B)]) (fun t => t.pc == 0x202) = true := by decide
/-- CF15: a skip is not masked. -/
theorem test_skip_past_top : gives (.seImm 0 0) { start with pc := 0x1000 } (fun t => t.pc == 0x1002) = true := by decide
/-- CF13, CF14. -/
theorem test_sne_imm : gives (.sneImm 3 0x2A) (regs [(3, 0x2A)]) (fun t => t.pc == 0x202) &&
    gives (.sneImm 3 0) (regs [(3, 0x2A)]) (fun t => t.pc == 0x204) = true := by decide
/-- CF16, CF17. -/
theorem test_se_reg : gives (.seReg 1 2) (regs [(1, 7), (2, 7)]) (fun t => t.pc == 0x204) &&
    gives (.seReg 1 2) (regs [(1, 7), (2, 8)]) (fun t => t.pc == 0x202) = true := by decide
/-- CF20, CF21. -/
theorem test_sne_reg : gives (.sneReg 1 2) (regs [(1, 7), (2, 8)]) (fun t => t.pc == 0x204) &&
    gives (.sneReg 1 2) (regs [(1, 7), (2, 7)]) (fun t => t.pc == 0x202) = true := by decide
/-- CF24, CF25. -/
theorem test_jp_v0 : gives (.jpV0 0x2F0) (regs [(0, 0x20), (2, 4)]) (fun t => t.pc == 0x310) &&
    gives (.jpV0 0x2F0) (withQuirks false false false (regs [(0, 0x20), (2, 4)])) (fun t => t.pc == 0x2F4) = true := by
  decide
/-- CF26, CF27. -/
theorem test_jp_v0_wraps : gives (.jpV0 0xFFF) (regs [(0, 1)]) (fun t => t.pc == 0) &&
    gives (.jpV0 0xFFF) (withQuirks false false false (regs [(0, 0xFF), (15, 2)])) (fun t => t.pc == 1) = true := by
  decide

/-! ### Register load and ALU (section 2.2) -/

/-- AL1. -/
theorem test_ld_imm : gives (.ldImm 0xA 0x2F) start (fun t => t.reg 0xA == 0x2F && t.pc == 0x202) = true := by decide
/-- AL3, AL6. -/
theorem test_add_imm_wraps : gives (.addImm 1 5) (regs [(1, 0xFF)]) (fun t => t.reg 1 == 4 && t.reg VF == 0) &&
    gives (.addImm 15 1) (regs [(15, 0xFF)]) (fun t => t.reg VF == 0) = true := by decide
/-- AL7. -/
theorem test_ld_reg : gives (.ldReg 1 2) (regs [(2, 0x5C)]) (fun t => t.reg 1 == 0x5C) = true := by decide
/-- AL8. -/
theorem test_or : gives (.orReg 1 2) (regs [(1, 0xF0), (2, 0x0F), (15, 1)])
    (fun t => t.reg 1 == 0xFF && t.reg VF == 1) = true := by decide
/-- AL9. -/
theorem test_and : gives (.andReg 1 2) (regs [(1, 0xF3), (2, 0x3F)]) (fun t => t.reg 1 == 0x33) = true := by decide
/-- AL10. -/
theorem test_xor : gives (.xorReg 1 2) (regs [(1, 0xFF), (2, 0x0F)]) (fun t => t.reg 1 == 0xF0) = true := by decide
/-- AL12, AL13. -/
theorem test_add_reg : gives (.addReg 1 2) (regs [(1, 0x10), (2, 0x20), (15, 1)])
      (fun t => t.reg 1 == 0x30 && t.reg VF == 0) &&
    gives (.addReg 1 2) (regs [(1, 0xFF), (2, 3)]) (fun t => t.reg 1 == 2 && t.reg VF == 1) = true := by decide
/-- AL16, AL17, AL18: VF as destination, as source, as both. -/
theorem test_add_reg_on_flag : gives (.addReg 15 1) (regs [(15, 0xF0), (1, 0x20)]) (fun t => t.reg VF == 0x10) &&
    gives (.addReg 1 15) (regs [(1, 0xFF), (15, 1)]) (fun t => t.reg 1 == 0 && t.reg VF == 1) &&
    gives (.addReg 15 15) (regs [(15, 0x90)]) (fun t => t.reg VF == 0x20) = true := by decide
/-- AL20, AL21. -/
theorem test_sub : gives (.subReg 1 2) (regs [(1, 0x10), (2, 0x20)]) (fun t => t.reg 1 == 0xF0 && t.reg VF == 0) &&
    gives (.subReg 1 2) (regs [(1, 0x44), (2, 0x44)]) (fun t => t.reg 1 == 0 && t.reg VF == 1) = true := by decide
/-- AL23, AL24. -/
theorem test_sub_on_flag : gives (.subReg 15 1) (regs [(15, 5), (1, 3)]) (fun t => t.reg VF == 2) &&
    gives (.subReg 1 15) (regs [(1, 5), (15, 9)]) (fun t => t.reg 1 == 0xFC && t.reg VF == 0) = true := by decide
/-- AL25, AL26. -/
theorem test_subn : gives (.subn 1 2) (regs [(1, 0x10), (2, 0x30)]) (fun t => t.reg 1 == 0x20 && t.reg VF == 1) &&
    gives (.subn 1 2) (regs [(1, 0x30), (2, 0x10)]) (fun t => t.reg 1 == 0xE0 && t.reg VF == 0) = true := by decide
/-- AL28. -/
theorem test_subn_on_flag : gives (.subn 15 1) (regs [(15, 3), (1, 5)]) (fun t => t.reg VF == 2) = true := by decide
/-- AL33, AL34. -/
theorem test_shr : gives (.shr 1 2) (regs [(1, 0xAA), (2, 5)]) (fun t => t.reg 1 == 0x55 && t.reg VF == 0) &&
    gives (.shr 1 2) (withQuirks true true false (regs [(1, 0xAA), (2, 5)]))
      (fun t => t.reg 1 == 2 && t.reg VF == 1) = true := by decide
/-- AL36. -/
theorem test_shr_of_flag : gives (.shr 1 15) (withQuirks true true false (regs [(1, 8), (15, 1)]))
    (fun t => t.reg 1 == 0 && t.reg VF == 1) = true := by decide
/-- AL40, AL41. -/
theorem test_shl : gives (.shl 1 2) (withQuirks true true false (regs [(1, 1), (2, 0xC0)]))
      (fun t => t.reg 1 == 0x80 && t.reg VF == 1) &&
    gives (.shl 1 2) (regs [(1, 1), (2, 0xC0)]) (fun t => t.reg 1 == 2 && t.reg VF == 0) = true := by decide
/-- AL42. -/
theorem test_shl_on_flag : gives (.shl 15 0) (regs [(15, 0x81)]) (fun t => t.reg VF == 2) = true := by decide

/-! ### Index register and memory (section 2.3) -/

/-- IM2. -/
theorem test_ld_i : gives (.ldI 0xFFF) start (fun t => t.index == 0xFFF) = true := by decide
/-- IM5, IM6. -/
theorem test_add_i : gives (.addI 2) (regs [(2, 1)] 0xFFF) (fun t => t.index == 0x1000 && t.reg VF == 1) &&
    gives (.addI 2) (regs [(2, 0x1F), (15, 1)] 0xFE0) (fun t => t.index == 0xFFF && t.reg VF == 0) = true := by decide
/-- IM7, IM9. -/
theorem test_add_i_wraps : gives (.addI 2) (regs [(2, 1)] 0xFFFF) (fun t => t.index == 0 && t.reg VF == 0) &&
    gives (.addI 15) (regs [(15, 0x10)] 0x100) (fun t => t.index == 0x110 && t.reg VF == 0) = true := by decide
/-- IM11, IM13. -/
theorem test_ld_f : gives (.ldF 4) (regs [(4, 0x1A)]) (fun t => t.index == 0x82) &&
    gives (.ldF 4) (regs [(4, 0xFF)]) (fun t => t.index == 0x9B) = true := by decide
/-- IM15, IM18. -/
theorem test_bcd : gives (.ldB 5) (regs [(5, 0xFF)] 0x300) (fun t => t.mem.readBytes 0x300 3 == [2, 5, 5]) &&
    gives (.ldB 5) (regs [(5, 0x7B)] 0xFFD) (fun t => t.mem.readBytes 0xFFD 3 == [1, 2, 3]) = true := by decide
/-- IM16, IM17, IM19. -/
theorem test_bcd_guard : raises (.ldB 5) (regs [(5, 0x7B)] 0x1FF) .reservedWrite &&
    raises (.ldB 5) (regs [(5, 1)] 0x50) .reservedWrite && raises (.ldB 5) (regs [(5, 0x7B)] 0xFFE) .outOfBoundsRead &&
    raises (.ldB 5) (regs [(5, 0x7B)] 0xFFFF) .outOfBoundsRead = true := by decide
/-- IM20, IM21. -/
theorem test_store : gives (.storeRegs 3) (regs [(0, 1), (1, 2), (2, 3), (3, 4), (4, 9)] 0x300)
      (fun t => t.mem.readBytes 0x300 5 == [1, 2, 3, 4, 0] && t.index == 0x300) &&
    gives (.storeRegs 3) (withQuirks false true true (regs [(0, 1), (1, 2), (2, 3), (3, 4), (4, 9)] 0x300))
      (fun t => t.mem.readBytes 0x300 5 == [1, 2, 3, 4, 0] && t.index == 0x304) = true := by decide
/-- IM22, IM25, IM27. -/
theorem test_store_guard : gives (.storeRegs 0) (withQuirks false true true (regs [(0, 0xAB)] 0xFFF))
      (fun t => t.mem.byte 0xFFF == 0xAB && t.index == 0x1000) &&
    raises (.storeRegs 15) (regs [(0, 1), (15, 0xEE)] 0xFF1) .outOfBoundsRead &&
    raises (.storeRegs 1) (regs [(0, 1), (1, 2)] 0x1FF) .reservedWrite = true := by decide
/-- IM30, IM31. -/
theorem test_load : gives (.loadRegs 2) (withBytes 0x300 [0xAA, 0xBB, 0xCC, 0xDD] (regs [(3, 0x11)] 0x300))
      (fun t => t.v.toList.take 4 == [0xAA, 0xBB, 0xCC, 0x11] && t.index == 0x300) &&
    gives (.loadRegs 2) (withQuirks false true true (withBytes 0x300 [0xAA, 0xBB, 0xCC] (regs [(3, 0x11)] 0x300)))
      (fun t => t.v.toList.take 4 == [0xAA, 0xBB, 0xCC, 0x11] && t.index == 0x303) = true := by decide
/-- IM32, IM35. -/
theorem test_load_guard : gives (.loadRegs 4) (regs [] 0x50)
      (fun t => t.v.toList.take 5 == [0xF0, 0x90, 0x90, 0x90, 0xF0]) &&
    raises (.loadRegs 15) (regs [(0, 7)] 0xFF1) .outOfBoundsRead = true := by decide

/-! ### Display (section 2.4) -/

/-- The columns that are on in one row. -/
def columnsOn (t : State) (y : Nat) : List Nat := (List.range 64).filter (pixelAt t.fb y)

/-- DR4: the start wraps, the rest is clipped, right and below. -/
theorem test_drw_clips : gives (.drw 0 1 5) (regs [(0, 0x3E), (1, 0x1E)] 0x50)
    (fun t => columnsOn t 30 == [62, 63] && columnsOn t 31 == [62] && columnsOn t 0 == [] && t.reg VF == 0) = true := by
  decide
/-- DR2, DR3: a collision; a start beyond the screen. -/
theorem test_drw_collides : gives (.drw 0 1 5) (withPixel 0 0 (regs [] 0x50))
      (fun t => columnsOn t 0 == [1, 2, 3] && columnsOn t 1 == [0, 3] && t.reg VF == 1) &&
    gives (.drw 0 1 5) (regs [(0, 0x44), (1, 0x22)] 0x50)
      (fun t => columnsOn t 2 == [4, 5, 6, 7] && columnsOn t 3 == [4, 7] && t.reg VF == 0) = true := by decide
/-- DR8, DR11: the check covers every row, and N = 0. -/
theorem test_drw_guard : gives (.drw 0 1 0) (regs [(15, 1)] 0x1000) (fun t => t.reg VF == 0) &&
    raises (.drw 0 1 0) (regs [(15, 1)] 0x1001) .outOfBoundsRead &&
    raises (.drw 0 1 15) (regs [(1, 0x1F), (15, 7)] 0xFF2) .outOfBoundsRead = true := by decide
/-- DR16. -/
theorem test_cls : gives .cls (withPixel 5 5 (regs [(15, 1)]))
    (fun t => columnsOn t 5 == [] && t.reg VF == 1) = true := by decide

/-! ### Keypad (section 2.5) -/

/-- KT1, KT2, KT3. -/
theorem test_skp : gives (.skp 5) (withKey 10 (regs [(5, 0x0A)])) (fun t => t.pc == 0x204) &&
    gives (.skp 5) (regs [(5, 0x0A)]) (fun t => t.pc == 0x202) &&
    gives (.skp 5) (withKey 10 (regs [(5, 0x1A)])) (fun t => t.pc == 0x204) = true := by decide
/-- KT4, KT6. -/
theorem test_sknp : gives (.sknp 5) (regs [(5, 0x0A)]) (fun t => t.pc == 0x204) &&
    gives (.sknp 5) (withKey 10 (regs [(5, 0xFA)])) (fun t => t.pc == 0x202) = true := by decide
/-- KT7, KT8. -/
theorem test_wait_key : gives (.ldVxK 3) (regs [(3, 0x99)]) (fun t => t.pc == 0x200 && t.reg 3 == 0x99) &&
    gives (.ldVxK 3) (withKey 2 (withKey 7 (regs [(3, 0x99)]))) (fun t => t.pc == 0x202 && t.reg 3 == 2) = true := by
  decide

/-! ### Timers and the Step frame (section 2.6); TIMER_PERIOD is opaque, so P stays a name -/

/-- TM1 and the two settings, in the execute phase. -/
theorem test_timers : gives (.ldVxDt 2) { start with dt := 60 } (fun t => t.reg 2 == 0x3C && t.dt == 60) &&
    gives (.ldDtVx 2) (regs [(2, 0x3C)]) (fun t => t.dt == 60) &&
    gives (.ldStVx 2) (regs [(2, 5)]) (fun t => t.st == 5 && t.acc == 0) = true := by decide
/-- TM7: one tick, the excess discarded. -/
theorem test_one_tick : ({ start with dt := 10, st := 1 }.timerAdvance (10 * Config.timerPeriod)).dt = 9 ∧
    ({ start with dt := 10, st := 1 }.timerAdvance (10 * Config.timerPeriod)).acc = 0 := by
  have h : ({ start with dt := 10, st := 1 } : State).ticks (10 * Config.timerPeriod) = true :=
    (ticks_iff _ _).2 (by omega)
  simp only [State.timerAdvance, h, if_true]
  decide
/-- TM3: a timer at 0 stays at 0. -/
theorem test_timer_stays_at_zero :
    ({ start with acc := Config.timerPeriod - 1 }.timerAdvance 1).dt = 0 := by
  have h : ({ start with acc := Config.timerPeriod - 1 } : State).ticks 1 = true :=
    (ticks_iff _ _).2 (by show _ ≤ Config.timerPeriod - 1 + 1; omega)
  simp only [State.timerAdvance, h, if_true]
  decide
/-- TM12: a fetch error changes nothing. -/
theorem test_fetch_error : transact (.step 600) { start with pc := 0xFFF, dt := 10 } =
    ({ start with pc := 0xFFF, dt := 10 }, .error .outOfBoundsRead) := by rfl
/-- TM11: an unknown word keeps PC + 2. -/
theorem test_unknown_word : (transact (.step 600) State.reset).1.pc = 0x202 ∧
    (transact (.step 600) State.reset).2 = .error .unknownOpcode := ⟨rfl, rfl⟩

/-! ### Random (section 2.7), the drawn byte a name -/

/-- RN1, whatever the drawn byte. -/
theorem test_rnd : ∃ t, exec (.rnd 1 0x0F) start = .next t ∧ t.reg 1 = (Config.rngNext 0).1 &&& 0x0F :=
  ⟨_, rfl, rfl⟩
/-- RN2: a byte is drawn for NN = 0 too. -/
theorem test_rnd_zero : ∃ t, exec (.rnd 1 0) start = .next t ∧ t.rng = (Config.rngNext 0).2 := ⟨_, rfl, rfl⟩

/-! ### Host transactions (sections 2.5, 2.9) -/

/-- HT1. -/
theorem test_reset_memory : (hostCall .reset start).1.mem.readBytes 0x50 5 = [0xF0, 0x90, 0x90, 0x90, 0xF0] ∧
    (hostCall .reset start).1.mem.readBytes 0x9B 5 = [0xF0, 0x80, 0xF0, 0x80, 0x80] ∧
    (hostCall .reset start).1.mem.byte 0x4F = 0 ∧ (hostCall .reset start).1.mem.byte 0xA0 = 0 := by decide
/-- HT3. -/
theorem test_load_too_large : (hostCall (.loadProgram (List.replicate 3585 1)) start).2 = .loadTooLarge := by
  have h : Config.memSize < Config.programStart + (List.replicate 3585 (1 : Byte)).length := by
    rw [List.length_replicate]; decide
  rw [hostCall, loadProgram, if_pos h]
/-- HT5. -/
theorem test_reset_erases : (hostCall .reset (hostCall (.loadProgram [0x12, 0]) start).1).1.mem.byte 0x200 = 0 := by
  decide
/-- HT7. -/
theorem test_next_opcode : nextOpcode (hostCall (.loadProgram [0xA2, 0xF0]) State.reset).1 = some 0xA2F0 := by decide
/-- KT13, KT14. -/
theorem test_keys : (hostCall (.keyPress 16) start).2 = .invalidKey ∧
    (hostCalls [.keyPress 3, .keyPress 3, .keyRelease 3] start).key 3 = false := by decide
/-- HT6. -/
theorem test_quirk_survives_reset :
    (hostCalls [.setQuirk .shift true, .reset] start).quirks.shiftLegacy = true := by decide

/-! ### The host's entry -/

theorem test_fetch_word_runs : ∃ t, step (State.reset.withFetchWord 16 0x6A2F) = .next t ∧ t.reg 0xA = 0x2F :=
  ⟨_, rfl, rfl⟩
/-- A host turn: its key is pressed before its Step. -/
theorem test_host_turn : ∃ t, step { State.reset.withFetchWord 16 0xF30A with host := [⟨[.keyPress 9], 0⟩] } = .next t ∧
    t.reg 3 = 9 ∧ t.host = [] := ⟨_, rfl, rfl, rfl⟩

/-! ### Witnesses: states and operands that meet the hypotheses of the obligations -/

/-- A state every instruction runs in: depth 1, I in the program area. -/
def able : State := { start with sp := 1, index := 0x300 }

/-- A word where the next Step fetches it, at the given PC. -/
def placed (pc w : Word) : State := { State.reset with pc := pc }.placeWord w

theorem reset_inv : State.reset.Inv := ⟨by decide, by decide, by decide, by decide⟩

/-- Every instruction gives a next state somewhere (used for each statement over all instructions). -/
theorem every_instruction_runs : oneOfEachRow.all (fun i => gives i able fun _ => true) = true := by decide

theorem witness_EncodeOfDecodeIsTheWord : decodeWord 0xFF65 = .ok (.loadRegs 15) := by rfl
theorem witness_DecoderFollowsTheOpcodeMap : decodeWord 0x00E0 = .ok .cls := by rfl
theorem witness_StepRunsTheDecodedInstruction :
    (placed 0xFFE 0x6A2F).hostTurn.pc.toNat ≤ 0xFFE ∧ (placed 0xFFE 0x6A2F).host = [] ∧
    decode [(placed 0xFFE 0x6A2F).hostTurn.mem.byte (placed 0xFFE 0x6A2F).hostTurn.pc.toNat,
      (placed 0xFFE 0x6A2F).hostTurn.mem.byte ((placed 0xFFE 0x6A2F).hostTurn.pc.toNat + 1)] =
      .ok (.ldImm 0xA 0x2F, []) := ⟨by decide, rfl, rfl⟩
theorem witness_FetchErrorChangesNothing : 0xFFE < ({ start with pc := 0xFFF } : State).pc.toNat := by decide
theorem witness_UnknownWordRaisesAfterTheAdvance : (placed 0xFFE 0x5121).pc.toNat ≤ 0xFFE ∧
    decode [(placed 0xFFE 0x5121).mem.byte (placed 0xFFE 0x5121).pc.toNat,
      (placed 0xFFE 0x5121).mem.byte ((placed 0xFFE 0x5121).pc.toNat + 1)] = .error (.unknownOpcode 0x5121) :=
  ⟨by decide, rfl⟩
theorem witness_AnInstructionThatRaisesHasWrittenNothing : exec .ret start = .fault (.stackUnderflow start) := by rfl
theorem witness_AFailingGuard_bcd :
    ¬ (0x200 ≤ (regs [] 0x1FF).index.toNat ∧ (regs [] 0x1FF).index.toNat + 3 ≤ 0x1000) ∧
    ¬ (0x200 ≤ (regs [] 0xFFE).index.toNat ∧ (regs [] 0xFFE).index.toNat + 3 ≤ 0x1000) := by decide
theorem witness_AFailingGuard_store :
    ¬ (0x200 ≤ (regs [] 0x1FF).index.toNat ∧ (regs [] 0x1FF).index.toNat + ((0 : Reg).val + 1) ≤ 0x1000) ∧
    ¬ (0x200 ≤ (regs [] 0x1000).index.toNat ∧ (regs [] 0x1000).index.toNat + ((0 : Reg).val + 1) ≤ 0x1000) := by decide
theorem witness_AFailingGuard_load : ¬ (regs [] 0x1000).index.toNat + ((0 : Reg).val + 1) ≤ 0x1000 := by decide
theorem witness_AFailingGuard_draw : ¬ (regs [] 0x1001).index.toNat + (0 : Nibble).toNat ≤ 0x1000 := by decide
theorem witness_TheMachineGoesOn_fetch :
    stepTransaction 0 { start with pc := 0xFFF } = .fault (.outOfBoundsRead { start with pc := 0xFFF }) := by rfl
theorem witness_TheMachineGoesOn_word :
    stepTransaction 0 State.reset = .fault (.unknownOpcode (State.reset.advance 0)) := by rfl
theorem witness_TimerAdvance_tick : Config.timerPeriod ≤ start.acc + Config.timerPeriod := Nat.le_add_left _ _
theorem witness_TimerAdvance_no_tick : start.acc + (Config.timerPeriod - 1) < Config.timerPeriod := by
  show 0 + (Config.timerPeriod - 1) < Config.timerPeriod
  have := timerPeriod_pos
  omega
theorem witness_TheTick_read : (∃ t, stepTransaction 0 (placed 0x200 0xF207) = .next t) ∧
    decode (placed 0x200 0xF207).fetchBytes = .ok (.ldVxDt 2, []) := ⟨⟨_, rfl⟩, rfl⟩
theorem witness_TheTick_set_dt : (∃ t, stepTransaction 0 (placed 0x200 0xF215) = .next t) ∧
    decode (placed 0x200 0xF215).fetchBytes = .ok (.ldDtVx 2, []) := ⟨⟨_, rfl⟩, rfl⟩
theorem witness_TheTick_set_st : (∃ t, stepTransaction 0 (placed 0x200 0xF218) = .next t) ∧
    decode (placed 0x200 0xF218).fetchBytes = .ok (.ldStVx 2, []) := ⟨⟨_, rfl⟩, rfl⟩
theorem witness_ASelfJumpRunsForever : (placed 0x200 0x1200).atSelfJump = true := by decide
/-- `StepKeepsInvariant`: a step that errs from reset, which meets the invariant. -/
theorem witness_StepKeepsInvariant_fault : State.reset.Inv ∧ ∃ f, step State.reset = .fault f := ⟨reset_inv, _, rfl⟩
/-- `StepKeepsInvariant` and `EveryTransactionKeepsInvariant`: a step that succeeds. -/
theorem witness_StepKeepsInvariant_next :
    (placed 0x200 0x6A2F).Inv ∧ ∃ t, step (placed 0x200 0x6A2F) = .next t :=
  ⟨⟨by decide, by decide, by decide, by decide⟩, _, rfl⟩
theorem witness_TheReservedZone_low :
    able.mem.wf = true ∧ 0x1FF < 0x200 ∧ ∃ t, exec (.ldB 0) { able with index := 0x200 } = .next t :=
  ⟨rfl, by decide, _, rfl⟩
theorem witness_TheReservedZone_high :
    able.mem.wf = true ∧ 0x1000 ≤ 0x1000 ∧ ∃ t, exec (.ldB 0) { able with index := 0xFFD } = .next t :=
  ⟨rfl, by decide, _, rfl⟩
theorem witness_EveryInstructionWritesOnlyItsParts :
    able.mem.wf = true ∧ ∃ t, exec (.storeRegs 15) able = .next t := ⟨rfl, _, rfl⟩
theorem witness_NoInstructionWritesTheHostsState : ∃ t, exec (.ldDtVx 0) able = .next t := ⟨_, rfl⟩
theorem witness_OnlySevenInstructionsWriteTheFlag :
    (∃ t, exec (.ldImm 14 1) able = .next t) ∧ writesFlag (.ldImm 14 1) = false ∧
    ¬ Writes (.ldImm 14 1) able (.v VF) := ⟨⟨_, rfl⟩, rfl, by simp [Writes, VF]⟩
theorem witness_OnlyRnd_next : (∀ x nn, Instr.ldVxK 1 ≠ .rnd x nn) ∧ ∃ t, exec (.ldVxK 1) able = .next t :=
  ⟨by simp, _, rfl⟩
theorem witness_OnlyRnd_fault : (∀ x nn, Instr.ret ≠ .rnd x nn) ∧ ∃ f, exec .ret start = .fault f := ⟨by simp, _, rfl⟩
theorem witness_OnlyFive_next : readsQuirks (.addI 1) = false ∧ ∃ t, exec (.addI 1) able = .next t := ⟨rfl, _, rfl⟩
theorem witness_OnlyFive_fault : readsQuirks (.ldB 1) = false ∧ ∃ f, exec (.ldB 1) start = .fault f := ⟨rfl, _, rfl⟩
theorem witness_CallPushesAndJumps : start.sp.val = (0 : Fin 16).val ∧
    ({ start with sp := 15 } : State).sp.val = (15 : Fin 16).val ∧ ({ start with sp := 16 } : State).sp.val = 16 := by
  decide
theorem witness_ReturnPopsThePc : able.sp.val = (0 : Fin 16).val + 1 ∧
    ({ start with sp := 16 } : State).sp.val = (15 : Fin 16).val + 1 ∧ start.sp.val = 0 := by decide
theorem witness_TheDepthIsNeverClamped : ({ start with sp := 16 } : State).sp.val = 16 ∧ start.sp.val = 0 ∧
    ({ start with sp := 15 } : State).sp.val ≠ 16 ∧ able.sp.val ≠ 0 := by decide
theorem witness_ReturnComesBackToTheCall : ∃ t, exec (.call 0x300) start = .next t ∧
    ({ t with pc := 0x400, v := start.v } : State).stack = t.stack ∧ ({ t with pc := 0x400 } : State).sp = t.sp :=
  ⟨_, rfl, rfl, rfl⟩
theorem witness_JumpWithOffset_legacy : start.quirks.jumpLegacy = true := by decide
theorem witness_JumpWithOffset_modern : (withQuirks false false false start).quirks.jumpLegacy = false ∧
    (0 : Reg).val = (0x0FF : Addr).toNat / 256 ∧ (15 : Reg).val = (0xFFF : Addr).toNat / 256 := by decide
/-- `AddSetsTheCarry`, `SubtractSetsNoBorrow`, `ShiftsByOne`: a destination that is not VF. -/
theorem witness_destination_not_flag : (14 : Reg) ≠ VF := by decide
theorem witness_ShiftsByOne : (0xAA : Byte) = (if (regs [(1, 0xAA), (2, 5)]).quirks.shiftLegacy = true
    then (regs [(1, 0xAA), (2, 5)]).reg 2 else (regs [(1, 0xAA), (2, 5)]).reg 1) := by decide
theorem witness_BcdStoresThreeDigits : (regs [] 0x200).mem.wf = true ∧ 0x200 ≤ (regs [] 0x200).index.toNat ∧
    (regs [] 0x200).index.toNat + 3 ≤ 0x1000 ∧ (regs [] 0xFFD).index.toNat + 3 ≤ 0x1000 := by decide
theorem witness_StoreRegistersToMemory : (regs [] 0x200).mem.wf = true ∧ 0x200 ≤ (regs [] 0x200).index.toNat ∧
    (regs [] 0x200).index.toNat + ((15 : Reg).val + 1) ≤ 0x1000 ∧
    (regs [] 0xFF0).index.toNat + ((15 : Reg).val + 1) ≤ 0x1000 := by decide
theorem witness_LoadRegistersFromMemory : (regs [] 0).index.toNat + ((15 : Reg).val + 1) ≤ 0x1000 ∧
    (regs [] 0xFFF).index.toNat + ((0 : Reg).val + 1) ≤ 0x1000 := by decide
theorem witness_LoadingIsSymmetricWithStoring : able.mem.wf = true ∧ ∃ t, exec (.storeRegs 3) able = .next t ∧
    (withRegs [(0, 9)] t).mem = t.mem ∧ (withRegs [(0, 9)] t).index = able.index := ⟨rfl, _, rfl, rfl, rfl⟩
theorem witness_AStoreIsSeenByTheNextFetch : able.mem.wf = true ∧ ({ able with index := 0x202 } : State).index =
    ({ able with index := 0x202 } : State).pc ∧ 1 ≤ (1 : Reg).val ∧
    ∃ t, exec (.storeRegs 1) { able with index := 0x202 } = .next t := ⟨rfl, rfl, by decide, _, rfl⟩
theorem witness_DrawFlipsTheSpritesPixels : (regs [] 0x1000).index.toNat + (0 : Nibble).toNat ≤ 0x1000 ∧
    (regs [] 0xFF1).index.toNat + (15 : Nibble).toNat ≤ 0x1000 := by decide
theorem witness_DrawingTwiceRestoresTheScreen : (0 : Reg) ≠ VF ∧ (14 : Reg) ≠ VF ∧
    ∃ t, exec (.drw 0 14 5) able = .next t := ⟨by decide, by decide, _, rfl⟩
theorem witness_KeySkips : (10 : Fin 16).val = ((regs [(5, 0xFA)]).reg 5).toNat % 16 := by decide
theorem witness_WaitForKey_pressed : (withKey 15 start).key 15 = true ∧ ∀ j < (15 : Fin 16), (withKey 15 start).key j =
    false := by decide
theorem witness_WaitForKey_none : ∀ k, start.key k = false := by decide
/-- `KeyPressSetsOneKey` and `KeyReleaseClearsOneKey`: the ids 15 and 16, and a key already in its level. -/
theorem witness_Keys : 15 = (15 : Fin 16).val ∧ 15 < 16 ∧ (withKey 15 start).key 15 = true ∧ start.key 15 = false := by
  decide
theorem witness_SetQuirk_shift : (placed 0xFFE 0x8126).pc.toNat ≤ 0xFFE ∧
    decode (placed 0xFFE 0x8126).fetchBytes = .ok (.shr 1 2, []) := ⟨by decide, rfl⟩
theorem witness_SetQuirk_jump : (placed 0xFFE 0xB2F0).pc.toNat ≤ 0xFFE ∧
    decode (placed 0xFFE 0xB2F0).fetchBytes = .ok (.jpV0 0x2F0, []) ∧
    (0 : Reg).val = (if true = true then 0 else (0x2F0 : Addr).toNat / 256) ∧
    (2 : Reg).val = (if false = true then 0 else (0x2F0 : Addr).toNat / 256) := ⟨by decide, rfl, by decide, by decide⟩
theorem witness_SetQuirk_mem : (placed 0xFFE 0xFF65).pc.toNat ≤ 0xFFE ∧
    decode (placed 0xFFE 0xFF65).fetchBytes = .ok (.loadRegs 15, []) ∧
    (placed 0xFFE 0xFF65).index.toNat + ((15 : Reg).val + 1) ≤ 0x1000 := ⟨by decide, rfl, by decide⟩
theorem witness_LoadProgramCopiesTheBytes : start.mem.wf = true ∧ ([0x12, 0x34] : List Byte).length ≤ 3584 ∧
    ([0x12, 0x34] : List Byte)[1]? = some 0x34 ∧ 3584 < (List.replicate 3585 (0 : Byte)).length :=
  ⟨rfl, by decide, rfl, by rw [List.length_replicate]; decide⟩
theorem witness_ResetLeavesTheStatedValues : 0x4F < 0x050 ∧ 0x0A0 ≤ 0x0A0 ∧ 0x050 ≤ 0x09F ∧ 0x09F < 0x0A0 ∧
    (⟨none, none, none, some 7⟩ : Configuration).seed = some 7 := ⟨by decide, by decide, by decide, by decide, rfl⟩
theorem witness_NextOpcodeIsTheWordToBeDecoded : 0xFFE < ({ start with pc := 0xFFF } : State).pc.toNat ∧
    (placed 0xFFE 0x00E0).pc.toNat ≤ 0xFFE ∧ nextOpcode (placed 0xFFE 0x00E0) = some 0x00E0 ∧
    decodeWord 0x00E0 = .ok .cls := ⟨by decide, by decide, by decide, rfl⟩

end Sys2Proof.Tests
end

section
/-! PROOF. The call stack's depth (10_state.md R19): what CALL and RET can do, once each, then the obligation. -/

namespace Sys2Proof.Proofs

open Sys2Proof.Machine

theorem exec_call (a : Addr) (s : State) : exec (.call a) s = execCall a s := rfl

theorem exec_ret (s : State) : exec .ret s = execRet s := rfl

/-- All a CALL can do: push PC, count it and jump while there is room, or raise in the state as it was
(41_control_flow.md R101). -/
theorem exec_call_cases (a : Addr) (s : State) :
    (∃ t, exec (.call a) s = .next t ∧ s.sp.val < 16 ∧ t.sp.val = s.sp.val + 1 ∧
      (∀ j : Fin 16, t.stack[j.val] = if j.val = s.sp.val then s.pc else s.stack[j.val]) ∧
      t = { s with stack := t.stack, sp := t.sp, pc := addrWord a }) ∨
    exec (.call a) s = raise .stackOverflow s ∧ s.sp.val = 16 := by
  rw [exec_call, execCall]
  obtain ⟨t, hpush, hroom, hsp, hstack, ht⟩ | ⟨hpush, hfull⟩ := push_cases s s.pc <;> rw [hpush]
  · refine .inl ⟨_, rfl, hroom, hsp, hstack, ?_⟩
    rw [ht]
  · exact .inr ⟨rfl, hfull⟩

/-- All a RET can do: lower the depth and jump to the entry there, or raise in the state as it was
(41_control_flow.md R103). -/
theorem exec_ret_cases (s : State) :
    (∃ t, ∃ j : Fin 16, exec .ret s = .next t ∧ j.val + 1 = s.sp.val ∧ t.sp.val = j.val ∧
      t = { s with sp := t.sp, pc := s.stack[j.val] }) ∨
    exec .ret s = raise .stackUnderflow s ∧ s.sp.val = 0 := by
  rw [exec_ret, execRet]
  obtain ⟨t, j, hpop, hj, hsp, ht⟩ | ⟨hpop, hempty⟩ := pop_cases s <;> rw [hpop]
  · refine .inl ⟨_, j, rfl, hj, hsp, ?_⟩
    rw [ht]
  · exact .inr ⟨rfl, hempty⟩

theorem sp_le_sixteen (s : State) : s.sp.val ≤ 16 := Nat.le_of_lt_succ s.sp.isLt

/-- Raising leaves the call stack as it was. -/
theorem raise_keeps_stack (k : ErrorKind) (s : State) :
    ∃ f : Fault, raise k s = .fault f ∧ f.kind = k ∧ f.after.sp = s.sp ∧ f.after.stack = s.stack := by
  obtain ⟨f, hf, hk, hs⟩ := raise_eq k s
  exact ⟨f, hf, hk, hs ▸ rfl, hs ▸ rfl⟩

/-- Settles O30: the depth's type bounds it, and CALL and RET each either move it by one or raise. -/
theorem theDepthIsNeverClamped : Obligations.TheDepthIsNeverClamped := by
  intro a s
  refine ⟨sp_le_sixteen s, fun hfull => ?_, fun hempty => ?_, fun hroom => ?_, fun hsome => ?_, rfl⟩
  · obtain ⟨-, -, hlt, -⟩ | ⟨hraise, -⟩ := exec_call_cases a s
    · omega
    · exact hraise ▸ raise_keeps_stack .stackOverflow s
  · obtain ⟨-, j, -, hj, -⟩ | ⟨hraise, -⟩ := exec_ret_cases s
    · omega
    · exact hraise ▸ raise_keeps_stack .stackUnderflow s
  · obtain ⟨t, hnext, -, hsp, -⟩ | ⟨-, hfull⟩ := exec_call_cases a s
    · exact ⟨t, hnext, hsp⟩
    · exact absurd hfull hroom
  · obtain ⟨t, j, hnext, hj, hsp, -⟩ | ⟨-, hempty⟩ := exec_ret_cases s
    · exact ⟨t, hnext, hsp ▸ hj⟩
    · exact absurd hempty hsome

end Sys2Proof.Proofs
end

section
/-! PROOF. The decoder is total: the one thing it can refuse a word with is UnknownOpcode of that word,
family by family and then for the dispatch on the family (30_encoding.md R72, R74). -/

namespace Sys2Proof.Proofs

open Sys2Proof

variable {op : Word} {d : Fields} {e : DecodeReject}

theorem decodeFamily0_error (h : decodeFamily0 op d = .error e) : e = .unknownOpcode op := by
  unfold decodeFamily0 at h
  split_ifs at h
  cases h
  rfl

theorem decodeFamily8_error (h : decodeFamily8 op d = .error e) : e = .unknownOpcode op := by
  unfold decodeFamily8 at h
  split at h <;> cases h
  rfl

theorem decodeFamilyE_error (h : decodeFamilyE op d = .error e) : e = .unknownOpcode op := by
  unfold decodeFamilyE at h
  split_ifs at h
  cases h
  rfl

theorem decodeFamilyF_error (h : decodeFamilyF op d = .error e) : e = .unknownOpcode op := by
  unfold decodeFamilyF at h
  split_ifs at h
  cases h
  rfl

/-- A word is refused only as UnknownOpcode of that very word (R72): families 0, 5, 8, 9, E and F can
refuse, families 5 and 9 by N alone (R68), and each of the other ten always answers an instruction. -/
theorem decodeWord_error (h : decodeWord op = .error e) : e = .unknownOpcode op := by
  simp only [decodeWord] at h
  split at h
  case h_1 => exact decodeFamily0_error h
  case h_9 => exact decodeFamily8_error h
  case h_6 | h_10 =>
    split_ifs at h
    cases h
    rfl
  case h_15 => exact decodeFamilyE_error h
  case h_16 => exact decodeFamilyF_error h
  all_goals cases h

/-- Settles O4: the decoder answers an instruction or an error, and its only error is UnknownOpcode of the
word. -/
theorem decoderIsTotal : Obligations.DecoderIsTotal := by
  intro w
  cases h : decodeWord w with
  | ok i => exact .inl ⟨i, rfl⟩
  | error e => exact .inr (congrArg Except.error (decodeWord_error h))

end Sys2Proof.Proofs
end

section
/-! PROOF. A failed fetch changes nothing (40_step_cycle.md R81). What an instruction can answer is said once for
all 34; an error past the fetch check then keeps PC + 2 and the timer advance (60_exceptions.md R215, decision
D14), and so never leaves PC as it was. -/

namespace Sys2Proof.Proofs

open Sys2Proof.Machine

variable {e : Nat} {s : State} {f : Fault}

theorem exec_drw (x y : Reg) (n : Nibble) (s : State) : exec (.drw x y n) s = execDrw x y n s := rfl

theorem exec_ldVxK (x : Reg) (s : State) : exec (.ldVxK x) s = execLdVxK x s := rfl

theorem exec_ldB (x : Reg) (s : State) : exec (.ldB x) s = execLdB x s := rfl

theorem exec_storeRegs (x : Reg) (s : State) : exec (.storeRegs x) s = execStoreRegs x s := rfl

theorem exec_loadRegs (x : Reg) (s : State) : exec (.loadRegs x) s = execLoadRegs x s := rfl

/-- A guarded effect is reached, or the guard raises in the state as it was. -/
theorem guarded_next_or_raise (c : Option ErrorKind) (s t : State) :
    (∃ u, guarded c s t = .next u) ∨ ∃ k, guarded c s t = raise k s := by
  obtain ⟨-, hnext⟩ | ⟨k, -, hraise⟩ := guarded_cases c s t
  · exact .inl ⟨t, hnext⟩
  · exact .inr ⟨k, hraise⟩

/-- Every instruction gives a next state or raises in the state as it was (60_exceptions.md R214): CALL and RET
by the depth, the four that access memory behind their guard, and no other raises. -/
theorem exec_next_or_raise (i : Instr) (s : State) : (∃ t, exec i s = .next t) ∨ ∃ k, exec i s = raise k s := by
  cases i with
  | call a =>
    obtain ⟨t, hnext, -⟩ | ⟨hraise, -⟩ := exec_call_cases a s
    · exact .inl ⟨t, hnext⟩
    · exact .inr ⟨_, hraise⟩
  | ret =>
    obtain ⟨t, -, hnext, -⟩ | ⟨hraise, -⟩ := exec_ret_cases s
    · exact .inl ⟨t, hnext⟩
    · exact .inr ⟨_, hraise⟩
  | drw x y n => exact exec_drw x y n s ▸ guarded_next_or_raise _ _ _
  | ldB x => exact exec_ldB x s ▸ guarded_next_or_raise _ _ _
  | storeRegs x => exact exec_storeRegs x s ▸ guarded_next_or_raise _ _ _
  | loadRegs x => exact exec_loadRegs x s ▸ guarded_next_or_raise _ _ _
  | ldVxK x =>
    rw [exec_ldVxK, execLdVxK]
    cases s.firstKey <;> exact .inl ⟨_, rfl⟩
  | _ => exact .inl ⟨_, rfl⟩

/-- The state an instruction's error leaves is the one the instruction began in (60_exceptions.md R214). -/
theorem exec_fault_after {i : Instr} (h : exec i s = .fault f) : f.after = s := by
  obtain ⟨t, hnext⟩ | ⟨k, hraise⟩ := exec_next_or_raise i s
  · cases hnext.symm.trans h
  · exact (raise_eq_fault (hraise.symm.trans h)).2

/-- Past the fetch check an error leaves PC + 2 and the timer advance (60_exceptions.md R215, decision D14). -/
theorem stepTransaction_fault_after (hpc : s.pc.toNat ≤ 0xFFE) (h : stepTransaction e s = .fault f) :
    f.after = s.advance e := by
  obtain ⟨hfetch, -⟩ | ⟨-, -, hraise⟩ | ⟨-, i, -, -, hexec⟩ := stepTransaction_cases e s
  · omega
  · exact (raise_eq_fault (hraise.symm.trans h)).2
  · exact exec_fault_after (hexec.symm.trans h)

theorem advance_pc_ne (hpc : s.pc.toNat ≤ 0xFFE) (e : Nat) : (s.advance e).pc ≠ s.pc := by
  intro heq
  have hadd := advance_pc_toNat hpc e
  rw [heq] at hadd
  omega

/-- Above 0xFFE the fetch fails in the state as it was (40_step_cycle.md R81). -/
theorem stepTransaction_fetch_error (hpc : 0xFFE < s.pc.toNat) (e : Nat) :
    ∃ f, stepTransaction e s = .fault f ∧ f.kind = .outOfBoundsRead ∧ f.after = s := by
  obtain ⟨-, hraise⟩ | ⟨hle, -⟩ | ⟨hle, -⟩ := stepTransaction_cases e s
  · exact hraise ▸ raise_eq .outOfBoundsRead s
  · omega
  · omega

/-- A Step that faults gives its error and the state that error leaves (60_exceptions.md R216). -/
theorem transact_step_of_fault (h : stepTransaction e s = .fault f) :
    transact (.step e) s = (f.after, .error f.kind) := by
  rw [transact, h]

/-- Settles O8: above 0xFFE the fetch check raises before anything changes, and up to 0xFFE every error leaves
PC + 2, which is not PC. -/
theorem fetchErrorChangesNothing : Obligations.FetchErrorChangesNothing := by
  intro e s
  refine ⟨⟨fun hpc => ?_, fun ⟨f, hfault, _, hkeep⟩ => ?_⟩, fun hpc => ?_⟩
  · obtain ⟨f, hfault, hkind, hafter⟩ := stepTransaction_fetch_error hpc e
    exact ⟨f, hfault, hkind, congrArg State.pc hafter⟩
  · by_contra hpc
    have hle : s.pc.toNat ≤ 0xFFE := Nat.le_of_not_lt hpc
    exact advance_pc_ne hle e (stepTransaction_fault_after hle hfault ▸ hkeep)
  · obtain ⟨f, hfault, hkind, hafter⟩ := stepTransaction_fetch_error hpc e
    rw [transact_step_of_fault hfault, hkind, hafter]

end Sys2Proof.Proofs
end

section
/-! PROOF. An instruction that raises has written nothing of its own (60_exceptions.md R214): over all 34
instructions, from what an instruction can answer (`exec_next_or_raise`). -/

namespace Sys2Proof.Proofs

open Sys2Proof.Machine

/-- Settles O10: an instruction that faults raised in the state it began in, and an error leaves the state it was
raised in. -/
theorem anInstructionThatRaisesHasWrittenNothing : Obligations.AnInstructionThatRaisesHasWrittenNothing := by
  intro i s f hfault
  exact exec_fault_after hfault

end Sys2Proof.Proofs
end

section
/-! PROOF. The decoder and the encoder are inverse (30_encoding.md sections 1 to 5): a word is the word of its own
fields in each format, so a decoded word is the encoding of what was read; the opcode map and the list of illegal
words are read off that. -/

namespace Sys2Proof.Proofs

open Sys2Proof Sys2Proof.Machine

/-! ### The fields of a word laid out, and the word of its own fields -/

@[simp] theorem wordNNN_f (f : Nibble) (a : Addr) : (fieldsOf (wordNNN f a)).f = f := (fieldsOf_wordNNN f a).1

@[simp] theorem wordNNN_nnn (f : Nibble) (a : Addr) : (fieldsOf (wordNNN f a)).nnn = a := (fieldsOf_wordNNN f a).2

@[simp] theorem wordXNN_f (f : Nibble) (x : Reg) (k : Byte) : (fieldsOf (wordXNN f x k)).f = f :=
  (fieldsOf_wordXNN f x k).1

@[simp] theorem wordXNN_x (f : Nibble) (x : Reg) (k : Byte) : (fieldsOf (wordXNN f x k)).x = fieldOfReg x :=
  (fieldsOf_wordXNN f x k).2.1

@[simp] theorem wordXNN_nn (f : Nibble) (x : Reg) (k : Byte) : (fieldsOf (wordXNN f x k)).nn = k :=
  (fieldsOf_wordXNN f x k).2.2

theorem wordNNN_fieldsOf (w : Word) : wordNNN (fieldsOf w).f (fieldsOf w).nnn = w := by
  apply BitVec.eq_of_getLsbD_eq
  intro k hk
  rw [wordNNN_getLsbD]
  interval_cases k <;> simp [fieldsOf]

theorem wordXNN_fieldsOf (w : Word) : wordXNN (fieldsOf w).f (regOfField (fieldsOf w).x) (fieldsOf w).nn = w := by
  apply BitVec.eq_of_getLsbD_eq
  intro k hk
  rw [wordXNN_getLsbD]
  interval_cases k <;> simp [fieldsOf]

theorem wordXY_fieldsOf (w : Word) :
    wordXY (fieldsOf w).f (regOfField (fieldsOf w).x) (regOfField (fieldsOf w).y) (fieldsOf w).n = w := by
  apply BitVec.eq_of_getLsbD_eq
  intro k hk
  rw [wordXY_getLsbD]
  interval_cases k <;> simp [fieldsOf]

/-! ### Decoding an encoding -/

/-- The decoder reads the word of an instruction as that instruction: the family F selects the format, and the fields
of a word laid out in that format are the operands. -/
theorem decodeWord_encode (i : Instr) : decodeWord (encode i) = .ok i := by
  cases i with
  | cls | ret => rfl
  | jp | call | ldI | jpV0 | seImm | sneImm | ldImm | addImm | rnd => simp [encode, decodeWord]
  | skp | sknp => simp [encode, decodeWord, decodeFamilyE]
  | ldVxDt | ldVxK | ldDtVx | ldStVx | addI | ldF | ldB | storeRegs | loadRegs =>
    simp [encode, decodeWord, decodeFamilyF]
  | seReg | sneReg | drw => simp [encode, decodeWord, fieldsOf_wordXY]
  | ldReg | orReg | andReg | xorReg | addReg | subReg | shr | subn | shl =>
    simp [encode, decodeWord, decodeFamily8, fieldsOf_wordXY]

/-- Settles O1: the two bytes laid out form the encoded word again, which decodes to the instruction. -/
theorem decodeOfEncodeIsTheInstruction : Obligations.DecodeOfEncodeIsTheInstruction := by
  intro i rest
  show decode (highByte (encode i) :: lowByte (encode i) :: rest) = _
  rw [decode_pair, opcodeOfBytes_bytes, decodeWord_encode]

/-! ### Encoding what was decoded -/

section
variable {w : Word} {f n : Nibble} {k : Byte} {a : Addr} {i : Instr}

theorem wordNNN_of_fields (hf : (fieldsOf w).f.toNat = f.toNat) (ha : (fieldsOf w).nnn = a) : wordNNN f a = w :=
  BitVec.eq_of_toNat_eq hf ▸ ha ▸ wordNNN_fieldsOf w

theorem wordXNN_of_fields (hf : (fieldsOf w).f.toNat = f.toNat) (hk : (fieldsOf w).nn = k) :
    wordXNN f (regOfField (fieldsOf w).x) k = w :=
  BitVec.eq_of_toNat_eq hf ▸ hk ▸ wordXNN_fieldsOf w

theorem wordXY_of_fields (hf : (fieldsOf w).f.toNat = f.toNat) (hn : (fieldsOf w).n.toNat = n.toNat) :
    wordXY f (regOfField (fieldsOf w).x) (regOfField (fieldsOf w).y) n = w :=
  BitVec.eq_of_toNat_eq hf ▸ BitVec.eq_of_toNat_eq hn ▸ wordXY_fieldsOf w

theorem encode_of_decodeFamily0 (hf : (fieldsOf w).f.toNat = 0x0) (h : decodeFamily0 w (fieldsOf w) = .ok i) :
    encode i = w := by
  unfold decodeFamily0 at h
  split_ifs at h with hcls hret
  · cases h
    exact wordNNN_of_fields (f := 0) hf hcls
  · cases h
    exact wordNNN_of_fields (f := 0) hf hret

theorem encode_of_decodeFamily8 (hf : (fieldsOf w).f.toNat = 0x8) (h : decodeFamily8 w (fieldsOf w) = .ok i) :
    encode i = w := by
  unfold decodeFamily8 at h
  split at h <;> rename_i hn <;> cases h <;> exact wordXY_of_fields hf hn

theorem encode_of_decodeFamilyE (hf : (fieldsOf w).f.toNat = 0xE) (h : decodeFamilyE w (fieldsOf w) = .ok i) :
    encode i = w := by
  unfold decodeFamilyE at h
  split_ifs at h <;> cases h <;> exact wordXNN_of_fields hf ‹_›

theorem encode_of_decodeFamilyF (hf : (fieldsOf w).f.toNat = 0xF) (h : decodeFamilyF w (fieldsOf w) = .ok i) :
    encode i = w := by
  unfold decodeFamilyF at h
  split_ifs at h <;> cases h <;> exact wordXNN_of_fields hf ‹_›

/-- Settles O2: family by family, the fields that were compared have the value the encoder lays out, and the others
are the operands. -/
theorem encodeOfDecodeIsTheWord : Obligations.EncodeOfDecodeIsTheWord := by
  intro w i h
  simp only [decodeWord] at h
  split at h
  case h_1 hf => exact encode_of_decodeFamily0 hf h
  case h_9 hf => exact encode_of_decodeFamily8 hf h
  case h_15 hf => exact encode_of_decodeFamilyE hf h
  case h_16 =>
    have hlt := (fieldsOf w).f.isLt
    simp only [imp_false] at *
    exact encode_of_decodeFamilyF (by omega) h
  case h_6 hf | h_10 hf =>
    split_ifs at h with hn
    cases h
    exact wordXY_of_fields hf (congrArg BitVec.toNat hn)
  case h_14 hf =>
    cases h
    exact wordXY_of_fields hf rfl
  case h_2 hf | h_3 hf | h_11 hf | h_12 hf =>
    cases h
    exact wordNNN_of_fields hf rfl
  case h_4 hf | h_5 hf | h_7 hf | h_8 hf | h_13 hf =>
    cases h
    exact wordXNN_of_fields hf rfl

end

/-! ### The opcode map -/

/-- The word of an instruction matches the instruction's own row. -/
theorem fixedBits (i : Instr) : Laws.FixedBits.Statement i := by
  cases i with
  | cls | ret => rfl
  | jp | call | ldI | jpV0 => exact Laws.wordNNN_family _ _
  | seImm | sneImm | ldImm | addImm | rnd => exact Laws.wordXNN_family _ _ _
  | drw => exact Laws.wordXY_family _ _ _ _
  | skp | sknp | ldVxDt | ldVxK | ldDtVx | ldStVx | addI | ldF | ldB | storeRegs | loadRegs =>
    exact Laws.wordXNN_mask _ _ _
  | _ => exact Laws.wordXY_mask _ _ _ _

theorem row_covers_encode (i : Instr) : i.row.covers (encode i) = true := beq_iff_eq.2 (fixedBits i)

/-- The opcode map has the row of every instruction. -/
theorem row_mem_opcodeTable (i : Instr) : i.row ∈ opcodeTable := by
  cases i <;> simp [opcodeTable, oneOfEachRow, controlRows, aluRows, indexRows, miscRows, Instr.row]

section
variable {w m p : Word}

/-- A row whose mask fixes F fixes the family. -/
theorem f_of_masked (h : w &&& m = p) (hm : (fieldsOf m).f = BitVec.allOnes 4) : (fieldsOf w).f = (fieldsOf p).f := by
  have hand : (fieldsOf (w &&& m)).f = (fieldsOf w).f &&& (fieldsOf m).f := BitVec.extractLsb'_and
  rw [← h, hand, hm, BitVec.and_allOnes]

theorem n_of_masked (h : w &&& m = p) (hm : (fieldsOf m).n = BitVec.allOnes 4) : (fieldsOf w).n = (fieldsOf p).n := by
  have hand : (fieldsOf (w &&& m)).n = (fieldsOf w).n &&& (fieldsOf m).n := BitVec.extractLsb'_and
  rw [← h, hand, hm, BitVec.and_allOnes]

theorem nn_of_masked (h : w &&& m = p) (hm : (fieldsOf m).nn = BitVec.allOnes 8) :
    (fieldsOf w).nn = (fieldsOf p).nn := by
  have hand : (fieldsOf (w &&& m)).nn = (fieldsOf w).nn &&& (fieldsOf m).nn := BitVec.extractLsb'_and
  rw [← h, hand, hm, BitVec.and_allOnes]

end

/-- A word that a row covers decodes: the fields that the row fixes are the ones the decoder compares. -/
theorem decodes_of_covers {w : Word} (j : Instr) (h : j.row.covers w = true) : ∃ i, decodeWord w = .ok i := by
  have hm : w &&& j.row.mask = j.row.pattern := beq_iff_eq.1 h
  cases j with
  | cls | ret =>
    have hw : w &&& BitVec.allOnes 16 = _ := hm
    rw [BitVec.and_allOnes] at hw
    exact hw ▸ ⟨_, rfl⟩
  | jp | call | ldI | jpV0 | seImm | sneImm | ldImm | addImm | rnd | drw =>
    simp only [Instr.row] at hm
    have hf := f_of_masked hm rfl
    simp only [decodeWord, hf]
    exact ⟨_, rfl⟩
  | seReg | sneReg | ldReg | orReg | andReg | xorReg | addReg | subReg | shr | subn | shl =>
    simp only [Instr.row] at hm
    have hf := f_of_masked hm rfl
    have hn := n_of_masked hm rfl
    simp only [decodeWord, decodeFamily8, hf, hn]
    exact ⟨_, rfl⟩
  | _ =>
    simp only [Instr.row] at hm
    have hf := f_of_masked hm rfl
    have hnn := nn_of_masked hm rfl
    simp only [decodeWord, decodeFamilyE, decodeFamilyF, hf, hnn]
    exact ⟨_, rfl⟩

/-- Settles O3: what decodes is the encoding of the instruction read, which its row covers, and a row fixes what the
decoder compares. -/
theorem decoderFollowsTheOpcodeMap : Obligations.DecoderFollowsTheOpcodeMap := by
  intro w
  have hown : ∀ i, decodeWord w = .ok i → i.row.covers w = true := fun i h =>
    encodeOfDecodeIsTheWord w i h ▸ row_covers_encode i
  refine ⟨⟨fun ⟨i, h⟩ => ⟨i.row, row_mem_opcodeTable i, hown i h⟩, fun ⟨r, hr, hcov⟩ => ?_⟩, hown⟩
  obtain ⟨j, -, rfl⟩ := List.mem_map.1 hr
  exact decodes_of_covers j hcov

/-! ### The illegal words -/

section
variable (w : Word) (d : Fields)

theorem f_toNat : (fieldsOf w).f.toNat = w.toNat / 4096 := by
  have := w.isLt
  simp [fieldsOf, BitVec.extractLsb'_toNat, Nat.shiftRight_eq_div_pow]
  omega

theorem n_toNat : (fieldsOf w).n.toNat = w.toNat % 16 := by simp [fieldsOf]

theorem nn_toNat : (fieldsOf w).nn.toNat = w.toNat % 256 := by simp [fieldsOf]

theorem nnn_toNat : (fieldsOf w).nnn.toNat = w.toNat % 4096 := by simp [fieldsOf]

theorem decodeFamily0_refuses_iff :
    decodeFamily0 w d = .error (.unknownOpcode w) ↔ d.nnn ≠ 0x0E0 ∧ d.nnn ≠ 0x0EE := by
  unfold decodeFamily0
  split_ifs <;> simp_all

theorem decodeFamily8_refuses_iff : decodeFamily8 w d = .error (.unknownOpcode w) ↔
    d.n.toNat ∈ [0x8, 0x9, 0xA, 0xB, 0xC, 0xD, 0xF] := by
  have hlt := d.n.isLt
  unfold decodeFamily8
  split <;> simp_all
  omega

theorem decodeFamilyE_refuses_iff : decodeFamilyE w d = .error (.unknownOpcode w) ↔ d.nn.toNat ∉ [0x9E, 0xA1] := by
  unfold decodeFamilyE
  split_ifs <;> simp_all [← BitVec.toNat_inj]

theorem decodeFamilyF_refuses_iff : decodeFamilyF w d = .error (.unknownOpcode w) ↔
    d.nn.toNat ∉ [0x07, 0x0A, 0x15, 0x18, 0x1E, 0x29, 0x33, 0x55, 0x65] := by
  unfold decodeFamilyF
  split_ifs <;> simp_all [← BitVec.toNat_inj]

end

/-- Settles O5: the dispatch on F leaves one line of the list, and the secondary decode of that family says which
words of it are refused. -/
theorem illegalWordsAreExactlyThese : Obligations.IllegalWordsAreExactlyThese := by
  intro w
  simp only [decodeWord]
  split <;> rename_i hf
  case h_1 =>
    rw [f_toNat] at hf
    simp [decodeFamily0_refuses_iff, ← BitVec.toNat_inj, nnn_toNat, hf]
    omega
  case h_6 | h_10 =>
    rw [f_toNat] at hf
    simp [← BitVec.toNat_inj, n_toNat, hf]
  case h_9 =>
    rw [f_toNat] at hf
    simp [decodeFamily8_refuses_iff, n_toNat, hf]
  case h_15 =>
    rw [f_toNat] at hf
    simp [decodeFamilyE_refuses_iff, nn_toNat, hf]
  case h_16 =>
    have hlt := w.isLt
    simp only [f_toNat, imp_false] at *
    have hF : w.toNat / 4096 = 0xF := by omega
    simp [decodeFamilyF_refuses_iff, nn_toNat, hF]
  all_goals
    rw [f_toNat] at hf
    simp [hf]

/-- Settles O6: a sanity check, by evaluation of the decoder on the seven words. -/
theorem wordsWrittenOutDecode : Obligations.WordsWrittenOutDecode := ⟨rfl, rfl, rfl, rfl, rfl, rfl, rfl⟩

end Sys2Proof.Proofs
end

section
/-! SUPPORT. What a change leaves alone (10_state.md section 1): how two frames combine, then one frame for each named
update of the state and one for every instruction, which needs no premise on memory. -/

namespace Sys2Proof.Machine

variable {s t u : State} {w w' : Part → Prop}

/-! ### Combining frames -/

theorem SameAt.trans {p : Part} (h : SameAt s t p) (h' : SameAt t u p) : SameAt s u p := by
  cases p <;> exact Eq.trans h' h

theorem ChangesOnly.mono (h : ChangesOnly w s t) (hw : ∀ p, w p → w' p) : ChangesOnly w' s t :=
  fun p hp => h p fun hwp => hp (hw p hwp)

theorem ChangesOnly.trans (h : ChangesOnly w s t) (h' : ChangesOnly w t u) : ChangesOnly w s u :=
  fun p hp => (h p hp).trans (h' p hp)

/-! ### One frame for each update -/

theorem changesOnly_pc (s : State) (a : Word) : ChangesOnly (· = .pc) s { s with pc := a } := by
  intro p hp
  cases p with
  | pc => exact absurd rfl hp
  | _ => rfl

theorem changesOnly_index (s : State) (a : Word) : ChangesOnly (· = .index) s { s with index := a } := by
  intro p hp
  cases p with
  | index => exact absurd rfl hp
  | _ => rfl

theorem changesOnly_sp (s : State) (d : Fin 17) : ChangesOnly (· = .sp) s { s with sp := d } := by
  intro p hp
  cases p with
  | sp => exact absurd rfl hp
  | _ => rfl

theorem changesOnly_dt (s : State) (b : Byte) : ChangesOnly (· = .dt) s { s with dt := b } := by
  intro p hp
  cases p with
  | dt => exact absurd rfl hp
  | _ => rfl

theorem changesOnly_st (s : State) (b : Byte) : ChangesOnly (· = .st) s { s with st := b } := by
  intro p hp
  cases p with
  | st => exact absurd rfl hp
  | _ => rfl

theorem changesOnly_fb (s : State) (g : Framebuffer) :
    ChangesOnly (fun p => ∃ y x, p = .pixel y x) s { s with fb := g } := by
  intro p hp
  cases p with
  | pixel y x => exact absurd ⟨y, x, rfl⟩ hp
  | _ => rfl

theorem changesOnly_setReg (s : State) (x : Reg) (b : Byte) : ChangesOnly (· = .v x) s (s.setReg x b) := by
  intro p hp
  cases p with
  | v r => exact (State.setReg_reg s x r b).trans (if_neg fun h => hp (congrArg Part.v h))
  | _ => rfl

theorem changesOnly_setFlagThenReg (s : State) (f : Byte) (x : Reg) (b : Byte) :
    ChangesOnly (fun p => p = .v VF ∨ p = .v x) s (s.setFlagThenReg f x b) :=
  .trans ((changesOnly_setReg s VF f).mono fun _ => .inl) ((changesOnly_setReg _ x b).mono fun _ => .inr)

theorem changesOnly_drawRandom (s : State) : ChangesOnly (· = .rng) s s.drawRandom := by
  intro p hp
  cases p with
  | rng => exact absurd rfl hp
  | _ => rfl

theorem changesOnly_v {g : Vector Byte 16} {x : Reg} (hg : ∀ r : Reg, ¬ r ≤ x → g[r.val] = s.reg r) :
    ChangesOnly (fun p => ∃ r : Reg, r ≤ x ∧ p = .v r) s { s with v := g } := by
  intro p hp
  cases p with
  | v r => exact hg r fun h => hp ⟨r, h, rfl⟩
  | _ => rfl

theorem changesOnly_loadRegsFrom (s : State) (a : Nat) (x : Reg) :
    ChangesOnly (fun p => ∃ r : Reg, r ≤ x ∧ p = .v r) s (s.loadRegsFrom a x) :=
  changesOnly_v fun r h => (State.loadRegsFrom_reg s a x r).trans (if_neg h)

/-- I moves under the legacy memory quirk alone (43_index_memory.md R154, R155). -/
theorem changesOnly_advanceIndex (s : State) (n : Nat) :
    ChangesOnly (fun p => p = .index ∧ s.quirks.memLegacy = true) s (s.advanceIndex n) := by
  intro p hp
  cases p with
  | index => exact (State.advanceIndex_index s n).trans (if_neg fun h => hp ⟨rfl, h⟩)
  | _ => rfl

theorem changesOnly_timerAdvance (s : State) (e : Nat) :
    ChangesOnly (· ∈ [.dt, .st, .acc]) s (s.timerAdvance e) := by
  intro p hp
  cases p with
  | dt | st | acc => simp at hp
  | _ => rfl

theorem changesOnly_advance (s : State) (e : Nat) : ChangesOnly (· ∈ [.pc, .dt, .st, .acc]) s (s.advance e) :=
  .trans ((changesOnly_pc s (s.pc + 2)).mono (by simp)) ((changesOnly_timerAdvance _ e).mono (by simp +contextual))

/-! ### Memory -/

/-- A write leaves every other address as it was, in canonical form or not. -/
theorem Memory.write_byte_of_ne (m : Memory) {a x : Nat} (b : Byte) (h : x ≠ a) : (m.write a b).byte x = m.byte x := by
  induction m with
  | nil =>
    simp only [Memory.write]
    split_ifs
    · rfl
    · rw [byte_cons, if_neg h.symm]
  | cons c m ih =>
    simp only [Memory.write]
    split_ifs with hlt heq
    · rw [byte_cons, byte_cons, ih]
    · rw [byte_cons, if_neg (heq ▸ h.symm)]
    · rw [byte_cons, byte_cons, if_neg h.symm, if_neg (heq ▸ h.symm)]
    · rfl
    · rw [byte_cons, if_neg h.symm]

theorem Memory.writeBytes_byte_of_outside (m : Memory) {a x : Nat} {bs : List Byte}
    (h : x < a ∨ a + bs.length ≤ x) : (m.writeBytes a bs).byte x = m.byte x := by
  induction bs generalizing m a with
  | nil => rfl
  | cons b bs ih =>
    rw [List.length_cons] at h
    rw [Memory.writeBytes, ih _ (by omega), write_byte_of_ne _ _ (by omega)]

theorem changesOnly_writeBytes (s : State) (a : Nat) (bs : List Byte) :
    ChangesOnly (fun p => ∃ k < bs.length, p = .mem (a + k)) s { s with mem := s.mem.writeBytes a bs } := by
  intro p hp
  cases p with
  | mem x =>
    refine Memory.writeBytes_byte_of_outside s.mem ?_
    by_contra hin
    exact hp ⟨x - a, by omega, congrArg Part.mem (by omega)⟩
  | _ => rfl

/-! ### The call stack -/

theorem changesOnly_stack {j : Fin 16} {g : Vector Word 16} {d : Fin 17} {a : Word}
    (hg : ∀ i : Fin 16, i ≠ j → g[i.val] = s.stack[i.val]) :
    ChangesOnly (fun p => p = .pc ∨ p = .sp ∨ p = .stackEntry j) s { s with stack := g, sp := d, pc := a } := by
  intro p hp
  cases p with
  | pc | sp => simp at hp
  | stackEntry i => exact hg i fun h => hp (.inr (.inr (congrArg Part.stackEntry h)))
  | _ => rfl

end Sys2Proof.Machine

namespace Sys2Proof.Proofs

open Sys2Proof.Machine

@[simp] theorem regsUpTo_length (s : State) (x : Reg) : (s.regsUpTo x).length = x.val + 1 := by
  simp [State.regsUpTo]

/-! ### CALL, RET and FX0A, where they give a next state -/

theorem exec_call_next {a : Addr} {s t : State} (h : exec (.call a) s = .next t) :
    s.sp.val < 16 ∧ t.sp.val = s.sp.val + 1 ∧
      (∀ j : Fin 16, t.stack[j.val] = if j.val = s.sp.val then s.pc else s.stack[j.val]) ∧
      t = { s with stack := t.stack, sp := t.sp, pc := addrWord a } := by
  obtain ⟨u, hnext, hu⟩ | ⟨hraise, -⟩ := exec_call_cases a s
  · cases hnext.symm.trans h
    exact hu
  · exact absurd (hraise.symm.trans h) (raise_ne_next _ _ _)

theorem exec_ret_next {s t : State} (h : exec .ret s = .next t) :
    ∃ j : Fin 16, j.val + 1 = s.sp.val ∧ t.sp.val = j.val ∧ t = { s with sp := t.sp, pc := s.stack[j.val] } := by
  obtain ⟨u, j, hnext, hu⟩ | ⟨hraise, -⟩ := exec_ret_cases s
  · cases hnext.symm.trans h
    exact ⟨j, hu⟩
  · exact absurd (hraise.symm.trans h) (raise_ne_next _ _ _)

theorem exec_ldVxK_of_none {s : State} (x : Reg) (h : s.firstKey = none) :
    exec (.ldVxK x) s = .next { s with pc := s.pc - 2 } := by
  rw [exec_ldVxK, execLdVxK, h]

theorem exec_ldVxK_of_some {s : State} (x : Reg) {j : Fin 16} (h : s.firstKey = some j) :
    exec (.ldVxK x) s = .next (s.setReg x (BitVec.ofNat 8 j.val)) := by
  rw [exec_ldVxK, execLdVxK, h]

theorem exec_ldVxK_next {x : Reg} {s t : State} (h : exec (.ldVxK x) s = .next t) :
    t = { s with pc := s.pc - 2 } ∨ ∃ b, t = s.setReg x b := by
  cases hk : s.firstKey with
  | none => cases (exec_ldVxK_of_none x hk).symm.trans h; exact .inl rfl
  | some j => cases (exec_ldVxK_of_some x hk).symm.trans h; exact .inr ⟨_, rfl⟩

/-! ### The frame of every instruction -/

/-- The frame of every instruction, whatever the form of memory: nothing changes outside the parts its rule writes. -/
theorem exec_frame {i : Instr} {s t : State} (h : exec i s = .next t) : ChangesOnly (Writes i s) s t := by
  cases i with
  | cls => cases h; exact changesOnly_fb s _
  | jp | jpV0 | seImm | sneImm | seReg | sneReg | skp | sknp => cases h; exact changesOnly_pc s _
  | ldImm | addImm | ldReg | orReg | andReg | xorReg | ldVxDt => cases h; exact changesOnly_setReg s _ _
  | addReg | subReg | shr | subn | shl => cases h; exact changesOnly_setFlagThenReg s _ _ _
  | ldI | ldF => cases h; exact changesOnly_index s _
  | ldDtVx => cases h; exact changesOnly_dt s _
  | ldStVx => cases h; exact changesOnly_st s _
  | addI =>
    cases h
    exact .trans ((changesOnly_index s _).mono fun _ => .inl) ((changesOnly_setReg _ _ _).mono fun _ => .inr)
  | rnd =>
    cases h
    exact .trans ((changesOnly_drawRandom s).mono fun _ => .inr) ((changesOnly_setReg _ _ _).mono fun _ => .inl)
  | ldVxK =>
    obtain rfl | ⟨b, rfl⟩ := exec_ldVxK_next h
    · exact (changesOnly_pc s _).mono fun _ => .inl
    · exact (changesOnly_setReg s _ b).mono fun _ => .inr
  | call a =>
    obtain ⟨hroom, -, hstack, ht⟩ := exec_call_next h
    rw [ht]
    refine (changesOnly_stack (j := ⟨s.sp.val, hroom⟩) fun i hi => ?_).mono ?_
    · exact (hstack i).trans (if_neg fun he => hi (Fin.ext he))
    · exact fun p => Or.imp_right (Or.imp_right fun hp => ⟨_, rfl, hp⟩)
  | ret =>
    obtain ⟨j, -, -, ht⟩ := exec_ret_next h
    rw [ht]
    exact .trans ((changesOnly_sp s t.sp).mono fun _ => .inr) ((changesOnly_pc _ _).mono fun _ => .inl)
  | drw =>
    obtain ⟨-, rfl⟩ := guarded_eq_next h
    exact .trans ((changesOnly_fb s _).mono fun _ => .inr) ((changesOnly_setReg _ _ _).mono fun _ => .inl)
  | ldB x =>
    obtain ⟨-, rfl⟩ := guarded_eq_next h
    exact changesOnly_writeBytes s _ (bcdDigits (s.reg x))
  | storeRegs x =>
    obtain ⟨-, rfl⟩ := guarded_eq_next h
    refine .trans ((changesOnly_writeBytes s _ _).mono fun p hp => .inr ?_)
      ((changesOnly_advanceIndex _ _).mono fun _ => .inl)
    obtain ⟨k, hk, rfl⟩ := hp
    rw [regsUpTo_length] at hk
    exact ⟨k, Nat.le_of_lt_succ hk, rfl⟩
  | loadRegs =>
    obtain ⟨-, rfl⟩ := guarded_eq_next h
    exact .trans ((changesOnly_loadRegsFrom s _ _).mono fun _ => .inr)
      ((changesOnly_advanceIndex _ _).mono fun _ hp => .inl hp)

/-- Settles O22: the frame needs no premise on memory. -/
theorem everyInstructionWritesOnlyItsParts : Obligations.EveryInstructionWritesOnlyItsParts :=
  fun _ _ _ _ h => exec_frame h

end Sys2Proof.Proofs
end

section
/-! PROOF. Rules over all 34 instructions: which error has which cause (60_exceptions.md R210), and what no
instruction writes or reads (10_state.md sections 2, 6, 7, 10, 11, 20_memory.md sections 1 to 3). -/

namespace Sys2Proof.Proofs

open Sys2Proof.Machine

variable {i : Instr} {s t : State} {c : Option ErrorKind} {k : ErrorKind} {p : Part}

/-! ### CALL and RET by the depth -/

theorem exec_call_of_lt (s : State) (a : Addr) (h : s.sp.val < 16) :
    exec (.call a) s = .next { s with
      stack := s.stack.set s.sp.val s.pc, sp := ⟨s.sp.val + 1, by omega⟩, pc := addrWord a } := by
  simp [exec_call, execCall, State.push, h]

theorem exec_call_of_full (a : Addr) (h : s.sp.val = 16) : exec (.call a) s = raise .stackOverflow s := by
  simp [exec_call, execCall, State.push, h]

theorem exec_ret_of_pos (h : s.sp.val ≠ 0) :
    exec .ret s = .next { s with
      sp := ⟨s.sp.val - 1, by omega⟩, pc := s.stack[s.sp.val - 1]'(by omega) } := by
  rw [exec_ret, execRet, State.pop, dif_neg h]

theorem exec_ret_of_empty (h : s.sp.val = 0) : exec .ret s = raise .stackUnderflow s := by
  rw [exec_ret, execRet, State.pop, dif_pos h]

/-! ### The cause of each error -/

theorem faults_iff_of_next (h : exec i s = .next t) : (∃ f, exec i s = .fault f ∧ f.kind = k) ↔ False := by
  simp [h]

theorem faults_iff_of_raise {j : ErrorKind} (h : exec i s = raise j s) :
    (∃ f, exec i s = .fault f ∧ f.kind = k) ↔ k = j := by
  obtain ⟨f, hf, hk, -⟩ := raise_eq j s
  simp [h, hf, hk, eq_comm]

theorem faults_iff_of_guarded (h : exec i s = guarded c s t) :
    (∃ f, exec i s = .fault f ∧ f.kind = k) ↔ c = some k := by
  cases c with
  | none => rw [faults_iff_of_next h]; simp
  | some j => rw [faults_iff_of_raise h]; simp [eq_comm]

theorem checkRead_eq_some_iff (a : Word) (n : Nat) :
    checkRead a n = some k ↔ k = .outOfBoundsRead ∧ 0x1000 < a.toNat + n := by
  obtain ⟨hle, hc⟩ | ⟨hlt, hc⟩ := checkRead_cases a n
  · simp [hc, Nat.not_lt.2 hle]
  · simp [hc, hlt, eq_comm]

/-- A write of few bytes that starts in the reserved zone ends below the top. -/
theorem checkWrite_eq_some_iff (a : Word) {n : Nat} (hn : n ≤ 16) : checkWrite a n = some k ↔
    k = .outOfBoundsRead ∧ 0x1000 < a.toNat + n ∨ k = .reservedWrite ∧ a.toNat < 0x200 := by
  obtain ⟨hlow, htop, hc⟩ | ⟨htop, hc⟩ | ⟨hlow, htop, hc⟩ := checkWrite_cases a n
  · simp [hc, Nat.not_lt.2 hlow, Nat.not_lt.2 htop]
  · simp [hc, htop, show ¬ a.toNat < 0x200 by omega, eq_comm]
  · simp [hc, hlow, Nat.not_lt.2 htop, eq_comm]

/-- Settles O11: CALL and RET raise by the depth, the four that access memory by their guard, no other raises. -/
theorem everyErrorHasItsCause : Obligations.EveryErrorHasItsCause := by
  intro i s k
  cases i with
  | call a =>
    rw [RaiseCause]
    obtain ⟨t, hnext, hroom, -⟩ | ⟨hraise, hfull⟩ := exec_call_cases a s
    · exact (faults_iff_of_next hnext).trans (iff_of_false id fun h => Nat.ne_of_lt hroom h.2)
    · rw [faults_iff_of_raise hraise, and_iff_left hfull]
  | ret =>
    rw [RaiseCause]
    obtain ⟨t, j, hnext, hj, -⟩ | ⟨hraise, hempty⟩ := exec_ret_cases s
    · exact (faults_iff_of_next hnext).trans (iff_of_false id fun h => Nat.succ_ne_zero _ (hj.trans h.2))
    · rw [faults_iff_of_raise hraise, and_iff_left hempty]
  | drw x y n => exact (faults_iff_of_guarded rfl).trans (checkRead_eq_some_iff _ _)
  | loadRegs x => exact (faults_iff_of_guarded rfl).trans (checkRead_eq_some_iff _ _)
  | ldB x => exact (faults_iff_of_guarded rfl).trans (checkWrite_eq_some_iff _ (by decide))
  | storeRegs x => exact (faults_iff_of_guarded rfl).trans (checkWrite_eq_some_iff _ x.isLt)
  | ldVxK x =>
    cases hk : s.firstKey with
    | none => exact faults_iff_of_next (exec_ldVxK_of_none x hk)
    | some j => exact faults_iff_of_next (exec_ldVxK_of_some x hk)
  | _ => exact faults_iff_of_next rfl

theorem guarded_fault_of_ne_none (h : c ≠ none) (s t : State) : ∃ f, guarded c s t = .fault f ∧ f.after = s := by
  obtain ⟨k, rfl⟩ := Option.ne_none_iff_exists'.1 h
  obtain ⟨f, hf, -, hs⟩ := raise_eq k s
  exact ⟨f, hf, hs⟩

/-- Settles O12: the four instructions stand behind a guard over their whole range. -/
theorem aFailingGuardAbortsTheWholeInstruction : Obligations.AFailingGuardAbortsTheWholeInstruction := by
  intro x y n s
  refine ⟨fun h => ?_, fun h => ?_, fun h => ?_, fun h => ?_⟩
  · exact guarded_fault_of_ne_none (mt (checkWrite_eq_none_iff _ _).1 h) s _
  · exact guarded_fault_of_ne_none (mt (checkWrite_eq_none_iff _ _).1 h) s _
  · exact guarded_fault_of_ne_none (mt (checkRead_eq_none_iff _ _).1 h) s _
  · exact guarded_fault_of_ne_none (mt (checkRead_eq_none_iff _ _).1 h) s _

/-! ### What no instruction writes -/

/-- The parts that only the host or the clock writes (10_state.md sections 6, 7, 11), and the model's own inputs. -/
def hostPart : Part → Bool
  | .acc | .key _ | .quirks | .host | .turn => true
  | _ => false

theorem not_writes_hostPart (i : Instr) (s : State) (hp : hostPart p = true) : ¬ Writes i s p := by
  cases p with
  | acc | key | quirks | host | turn => cases i <;> simp [Writes]
  | _ => cases hp

/-- Settles O23: the frame of every instruction leaves out the host's parts. -/
theorem noInstructionWritesTheHostsState : Obligations.NoInstructionWritesTheHostsState := by
  intro i s t h
  have hsame : ∀ p, hostPart p = true → SameAt s t p := fun p hp => exec_frame h p (not_writes_hostPart i s hp)
  refine ⟨hsame .acc rfl, Vector.ext fun j hj => ?_, hsame .quirks rfl, hsame .host rfl, hsame .turn rfl⟩
  exact hsame (.key ⟨j, hj⟩) rfl

/-- Settles O24: VF is outside the frame of an instruction whose rule does not write it. -/
theorem onlySevenInstructionsWriteTheFlag : Obligations.OnlySevenInstructionsWriteTheFlag :=
  fun _ _ _ h _ hvf => exec_frame h (.v VF) hvf

/-- A byte that an instruction writes lies in the program area: the write guard of FX33 and FX55 has passed. -/
theorem written_byte_inProgramArea {a : Nat} (h : exec i s = .next t) (hw : Writes i s (.mem a)) :
    0x200 ≤ a ∧ a < 0x1000 := by
  cases i with
  | ldB x =>
    obtain ⟨hlow, htop⟩ := (checkWrite_eq_none_iff _ _).1 (guarded_eq_next h).1
    obtain ⟨k, hk, ha⟩ := hw
    cases ha
    omega
  | storeRegs x =>
    obtain ⟨hlow, htop⟩ := (checkWrite_eq_none_iff _ _).1 (guarded_eq_next h).1
    obtain ⟨hi, -⟩ | ⟨k, hk, ha⟩ := hw
    · cases hi
    · cases ha
      omega
  | _ => simp [Writes] at hw

/-- Settles O21: an address outside the program area is outside the frame, and the invariant pins what is there. -/
theorem theReservedZoneIsNeverWritten : Obligations.TheReservedZoneIsNeverWritten := by
  refine ⟨fun i s t a _ ha h => exec_frame h (.mem a) fun hw => ?_, fun s a hs ha => ?_⟩
  · have := written_byte_inProgramArea h hw
    omega
  · exact Memory.byte_of_inProgramArea hs.memArea (.inl ha)

/-! ### What an instruction does not read -/

/-- An instruction gives the same with a field changed by `g`, which it leaves alone, or an error of the same kind. -/
def IgnoresChange (g : State → State) (i : Instr) (s : State) : Prop :=
  (∀ t, exec i s = .next t → exec i (g s) = .next (g t)) ∧
    ∀ f, exec i s = .fault f → ∃ f', exec i (g s) = .fault f' ∧ f'.kind = f.kind

section
variable {g : State → State}

theorem ignoresChange_of_next (h : exec i s = .next t) (hg : exec i (g s) = .next (g t)) : IgnoresChange g i s := by
  refine ⟨fun u hu => ?_, fun f hf => ?_⟩
  · cases h.symm.trans hu
    exact hg
  · cases h.symm.trans hf

theorem ignoresChange_of_raise (h : exec i s = raise k s) (hg : exec i (g s) = raise k (g s)) :
    IgnoresChange g i s := by
  refine ⟨fun u hu => absurd (h.symm.trans hu) (raise_ne_next k s u), fun f hf => ?_⟩
  obtain ⟨f', hf', hk, -⟩ := raise_eq k (g s)
  exact ⟨f', hg.trans hf', hk.trans (raise_eq_fault (h.symm.trans hf)).1.symm⟩

theorem ignoresChange_of_guarded (h : exec i s = guarded c s t) (hg : exec i (g s) = guarded c (g s) (g t)) :
    IgnoresChange g i s := by
  cases c with
  | none => exact ignoresChange_of_next h hg
  | some k => exact ignoresChange_of_raise h hg

end

/-- An instruction that is none of the six that read RNG or Q gives the same with both changed. -/
theorem ignoresChange_rng_quirks (r : Nat → Nat) (q : Quirks → Quirks) (s : State) (hr : ∀ x nn, i ≠ .rnd x nn)
    (hq : readsQuirks i = false) : IgnoresChange (fun u => { u with rng := r u.rng, quirks := q u.quirks }) i s := by
  cases i with
  | rnd x nn => exact absurd rfl (hr x nn)
  | shr | shl | jpV0 | storeRegs | loadRegs => cases hq
  | call a =>
    by_cases hroom : s.sp.val < 16
    · exact ignoresChange_of_next (exec_call_of_lt s a hroom)
        (exec_call_of_lt { s with rng := r s.rng, quirks := q s.quirks } a hroom)
    · have hfull : s.sp.val = 16 := by omega
      exact ignoresChange_of_raise (exec_call_of_full a hfull) (exec_call_of_full a hfull)
  | ret =>
    by_cases hempty : s.sp.val = 0
    · exact ignoresChange_of_raise (exec_ret_of_empty hempty) (exec_ret_of_empty hempty)
    · exact ignoresChange_of_next (exec_ret_of_pos hempty) (exec_ret_of_pos hempty)
  | ldVxK x =>
    cases hk : s.firstKey with
    | none => exact ignoresChange_of_next (exec_ldVxK_of_none x hk) (exec_ldVxK_of_none x hk)
    | some j => exact ignoresChange_of_next (exec_ldVxK_of_some x hk) (exec_ldVxK_of_some x hk)
  | drw | ldB => exact ignoresChange_of_guarded rfl rfl
  | _ => exact ignoresChange_of_next rfl rfl

/-- Settles O25: the five that read Q do not read RNG, and the others read neither. -/
theorem onlyRndReadsTheRandomSource : Obligations.OnlyRndReadsTheRandomSource := by
  intro i s r hi
  show IgnoresChange (fun u => { u with rng := r }) i s
  cases hq : readsQuirks i with
  | false => exact ignoresChange_rng_quirks (fun _ => r) id s hi hq
  | true =>
    cases i with
    | shr | shl | jpV0 => exact ignoresChange_of_next rfl rfl
    | storeRegs | loadRegs => exact ignoresChange_of_guarded rfl rfl
    | _ => cases hq

/-- Settles O26: CXNN does not read Q, and the others read neither it nor RNG. -/
theorem onlyFiveInstructionsReadTheQuirks : Obligations.OnlyFiveInstructionsReadTheQuirks := by
  intro i s q hi
  show IgnoresChange (fun u => { u with quirks := q }) i s
  cases i with
  | rnd => exact ignoresChange_of_next rfl rfl
  | _ => exact ignoresChange_rng_quirks id (fun _ => q) s (by simp) hi

end Sys2Proof.Proofs
end

section
/-! PROOF. The Step transaction (40_step_cycle.md, 60_exceptions.md sections 3, 4, 7, 9): what it runs, what an error
leaves, the timer advance, the next-opcode port and the jump to its own address. -/

namespace Sys2Proof.Proofs

open Sys2Proof.Machine

variable {e : Nat} {s t : State} {i : Instr} {rest : List Byte}

/-! ### What a Step runs -/

/-- Up to PC = 0xFFE a Step runs the instruction its two bytes decode to, after PC + 2 and the timer advance. -/
theorem stepTransaction_of_decode (hpc : s.pc.toNat ≤ 0xFFE) (hd : decode s.fetchBytes = .ok (i, rest)) (e : Nat) :
    stepTransaction e s = exec i (s.advance e) := by
  rw [stepTransaction, (checkRead_eq_none_iff s.pc 2).2 (by omega), hd]

theorem stepTransaction_of_refused {r : DecodeReject} (hpc : s.pc.toNat ≤ 0xFFE) (hd : decode s.fetchBytes = .error r)
    (e : Nat) : stepTransaction e s = raise .unknownOpcode (s.advance e) := by
  rw [stepTransaction, (checkRead_eq_none_iff s.pc 2).2 (by omega), hd]

/-- A Step that succeeds has passed the fetch check. -/
theorem pc_le_of_stepTransaction_next (h : stepTransaction e s = .next t) : s.pc.toNat ≤ 0xFFE := by
  obtain ⟨-, hraise⟩ | ⟨hle, -⟩ | ⟨hle, -⟩ := stepTransaction_cases e s
  · exact absurd (hraise.symm.trans h) (raise_ne_next _ _ _)
  · exact hle
  · exact hle

/-- Settles O7: the step is the Step transaction after the host's turn. -/
theorem stepRunsTheDecodedInstruction : Obligations.StepRunsTheDecodedInstruction := by
  intro s i rest hpc hd
  refine ⟨stepTransaction_of_decode hpc hd _, rfl, changesOnly_advance _ _, fun hhost => ?_⟩
  rw [State.hostTurn, hhost]

/-- Settles O9: dispatch raises after the advance, which is all that has changed. -/
theorem unknownWordRaisesAfterTheAdvance : Obligations.UnknownWordRaisesAfterTheAdvance := by
  intro e s r hpc hd
  obtain ⟨f, hf, hk, hs⟩ := raise_eq .unknownOpcode (s.advance e)
  refine ⟨f, (stepTransaction_of_refused hpc hd e).trans hf, hk, hs, ?_, ?_⟩
  · rw [hs, State.advance_pc]
  · exact hs ▸ changesOnly_advance s e

theorem stepTransaction_next_or_fault (e : Nat) (s : State) :
    (∃ t, stepTransaction e s = .next t) ∨ ∃ f, stepTransaction e s = .fault f := by
  have hfault : ∀ k u, ∃ f, raise k u = .fault f := fun k u => (raise_eq k u).imp fun _ h => h.1
  obtain ⟨-, hraise⟩ | ⟨-, -, hraise⟩ | ⟨-, i, -, -, hexec⟩ := stepTransaction_cases e s
  · exact .inr (hraise ▸ hfault _ _)
  · exact .inr (hraise ▸ hfault _ _)
  · obtain ⟨t, hnext⟩ | ⟨k, hraise⟩ := exec_next_or_raise i (s.advance e)
    · exact .inl ⟨t, hexec.trans hnext⟩
    · exact .inr (hexec ▸ hraise ▸ hfault _ _)

/-- Settles O13: no branch of a Step answers a refusal. -/
theorem aStepIsNeverRefused : Obligations.AStepIsNeverRefused :=
  fun s => stepTransaction_next_or_fault s.nextElapsed s.hostTurn

/-- Settles O14: an error of the fetch leaves the state as it was, a later one what the advance gave. -/
theorem theMachineGoesOnAfterAnError : Obligations.TheMachineGoesOnAfterAnError := by
  intro e s f h
  refine ⟨transact_step_of_fault h, ?_⟩
  obtain hpc | hpc := Nat.lt_or_ge 0xFFE s.pc.toNat
  · obtain ⟨f', hf', -, hs⟩ := stepTransaction_fetch_error hpc e
    cases hf'.symm.trans h
    exact .inl ⟨hs, hpc⟩
  · exact .inr ⟨stepTransaction_fault_after hpc h, hpc⟩

/-! ### The timers -/

/-- Settles O15: one decrement at a tick, none without. -/
theorem timerAdvanceTicksAtMostOnce : Obligations.TimerAdvanceTicksAtMostOnce := by
  intro e s
  refine ⟨fun h => ?_, fun h => ?_, changesOnly_timerAdvance s e⟩
  · have htick : s.ticks e = true := (ticks_iff s e).2 h
    simp [htick, countDown_toNat]
  · have htick : ¬ s.ticks e = true := mt (ticks_iff s e).1 (Nat.not_le.2 h)
    simp [htick]

/-- Settles O16: the three instructions run in the state after the advance. -/
theorem theTickComesBeforeExecution : Obligations.TheTickComesBeforeExecution := by
  intro e s t x rest h
  have hexec : ∀ {i}, decode s.fetchBytes = .ok (i, rest) → exec i (s.advance e) = .next t := fun hd =>
    (stepTransaction_of_decode (pc_le_of_stepTransaction_next h) hd e).symm.trans h
  refine ⟨fun hd => ?_, fun hd => ?_, fun hd => ?_⟩
  · cases hexec hd
    simp
  · cases hexec hd
    rfl
  · cases hexec hd
    rfl

/-! ### The next-opcode port and the jump to its own address -/

theorem nextOpcode_of_le (h : s.pc.toNat ≤ 0xFFE) :
    nextOpcode s = some (opcodeOfBytes (s.mem.byte s.pc.toNat) (s.mem.byte (s.pc.toNat + 1))) := by
  rw [nextOpcode, (checkRead_eq_none_iff s.pc 2).2 (by omega)]

theorem nextOpcode_of_gt (h : 0xFFE < s.pc.toNat) : nextOpcode s = none := by
  obtain ⟨hle, -⟩ | ⟨-, hc⟩ := checkRead_cases s.pc 2
  · omega
  · rw [nextOpcode, hc]

theorem pc_le_of_nextOpcode {op : Word} (h : nextOpcode s = some op) : s.pc.toNat ≤ 0xFFE := by
  by_contra hgt
  rw [nextOpcode_of_gt (Nat.lt_of_not_le hgt)] at h
  cases h

/-- The fetch decodes the word that the next-opcode port shows. -/
theorem decode_fetchBytes_of_nextOpcode {op : Word} (h : nextOpcode s = some op) (hd : decodeWord op = .ok i) :
    decode s.fetchBytes = .ok (i, []) := by
  rw [nextOpcode_of_le (pc_le_of_nextOpcode h)] at h
  cases h
  rw [fetchBytes_eq, decode_pair, hd]

theorem opcodeOfBytes_toNat (hi lo : Byte) : (opcodeOfBytes hi lo).toNat = hi.toNat * 256 + lo.toNat := by
  have hlt := lo.isLt
  show BitVec.toNat (w := 8 + 8) (hi ++ lo) = _
  rw [BitVec.toNat_append, ← Nat.shiftLeft_add_eq_or_of_lt hlt, Nat.shiftLeft_eq]

/-- Settles O59: port and fetch read the same two bytes behind the same check. -/
theorem nextOpcodeIsTheWordToBeDecoded : Obligations.NextOpcodeIsTheWordToBeDecoded := by
  intro s e
  refine ⟨nextOpcode_of_gt, fun hpc => ⟨_, nextOpcode_of_le hpc, opcodeOfBytes_toNat _ _, fun i hd => ?_⟩⟩
  exact stepTransaction_of_decode hpc (decode_fetchBytes_of_nextOpcode (nextOpcode_of_le hpc) hd) e

theorem atSelfJump_iff : s.atSelfJump = true ↔
    ∃ op a, nextOpcode s = some op ∧ decodeWord op = .ok (.jp a) ∧ addrWord a = s.pc := by
  unfold State.atSelfJump
  refine ⟨fun h => ?_, fun ⟨op, a, hop, hd, ha⟩ => ?_⟩
  · split at h
    · cases h
    · split at h
      · exact ⟨_, _, ‹_›, ‹_›, beq_iff_eq.1 h⟩
      · cases h
  · rw [hop]
    simp [hd, ha]

/-- A Step of a jump to its own address is the timer advance alone. -/
theorem stepTransaction_of_atSelfJump (h : s.atSelfJump = true) (e : Nat) :
    stepTransaction e s = .next (s.timerAdvance e) := by
  obtain ⟨op, a, hop, hd, ha⟩ := atSelfJump_iff.1 h
  rw [stepTransaction_of_decode (pc_le_of_nextOpcode hop) (decode_fetchBytes_of_nextOpcode hop hd)]
  show Host.Outcome.next { s.advance e with pc := addrWord a } = _
  rw [ha]
  rfl

/-- Settles O17: the timer advance leaves PC and memory, and so the jump, as they were. -/
theorem aSelfJumpRunsForever : Obligations.ASelfJumpRunsForever :=
  fun e s h => ⟨s.timerAdvance e, stepTransaction_of_atSelfJump h e, h, changesOnly_timerAdvance s e⟩

end Sys2Proof.Proofs
end

section
/-! PROOF. The invariant (10_state.md sections 1, 3, 5, 20_memory.md sections 1, 3): what an instruction can do to
memory, to a stack entry and to PC, once each for all 34; then every step and every transaction keeps it. -/

namespace Sys2Proof.Proofs

open Sys2Proof.Machine

variable {e : Nat} {s t : State} {i : Instr} {f : Fault}

/-! ### What an instruction can do to the parts the invariant speaks of -/

/-- Memory stands, or bytes were written to a range the write guard let through. -/
theorem exec_mem (h : exec i s = .next t) : t.mem = s.mem ∨ ∃ bs : List Byte,
    0x200 ≤ s.index.toNat ∧ s.index.toNat + bs.length ≤ 0x1000 ∧ t.mem = s.mem.writeBytes s.index.toNat bs := by
  cases i with
  | ldB x =>
    obtain ⟨hc, rfl⟩ := guarded_eq_next h
    obtain ⟨hlow, htop⟩ := (checkWrite_eq_none_iff _ _).1 hc
    exact .inr ⟨bcdDigits (s.reg x), hlow, htop, rfl⟩
  | storeRegs x =>
    obtain ⟨hc, rfl⟩ := guarded_eq_next h
    obtain ⟨hlow, htop⟩ := (checkWrite_eq_none_iff _ _).1 hc
    exact .inr ⟨s.regsUpTo x, hlow, (regsUpTo_length s x).symm ▸ htop, rfl⟩
  | drw x y n =>
    obtain ⟨-, rfl⟩ := guarded_eq_next h
    exact .inl rfl
  | loadRegs x =>
    obtain ⟨-, rfl⟩ := guarded_eq_next h
    exact .inl (State.loadRegsFrom_mem s s.index.toNat x)
  | call a =>
    obtain ⟨-, -, -, ht⟩ := exec_call_next h
    exact .inl (ht ▸ rfl)
  | ret =>
    obtain ⟨j, -, -, ht⟩ := exec_ret_next h
    exact .inl (ht ▸ rfl)
  | ldVxK x => obtain rfl | ⟨b, rfl⟩ := exec_ldVxK_next h <;> exact .inl rfl
  | _ => cases h; exact .inl rfl

/-- A stack entry stands, or a CALL has put PC there. -/
theorem exec_stack (h : exec i s = .next t) (j : Fin 16) :
    t.stack[j.val] = s.stack[j.val] ∨ t.stack[j.val] = s.pc := by
  cases i with
  | call a =>
    obtain ⟨-, -, hstack, -⟩ := exec_call_next h
    rw [hstack j]
    split_ifs
    · exact .inr rfl
    · exact .inl rfl
  | _ => exact .inl (exec_frame h (.stackEntry j) (by simp [Writes]))

theorem addrWord_toNat (a : Addr) : (addrWord a).toNat = a.toNat := by
  have := a.isLt
  simp [addrWord]
  omega

theorem addrWord_le (a : Addr) : (addrWord a).toNat ≤ 0xFFF := by
  rw [addrWord_toNat]
  exact Nat.le_of_lt_succ a.isLt

theorem jumpTarget_le (s : State) (a : Addr) : (jumpTarget s a).toNat ≤ 0xFFF := by
  rw [jumpTarget, BitVec.toNat_and]
  exact Nat.and_le_right

/-- PC stands, skips, goes back to its instruction, takes a 12-bit target, or returns to a stack entry. -/
theorem exec_pc (h : exec i s = .next t) : t.pc = s.pc ∨ t.pc = s.pc + 2 ∨ t.pc = s.pc - 2 ∨ t.pc.toNat ≤ 0xFFF ∨
    ∃ j : Fin 16, t.pc = s.stack[j.val] := by
  have hskip : ∀ c, (s.skipIf c).pc = s.pc ∨ (s.skipIf c).pc = s.pc + 2 := fun c => by cases c <;> simp
  cases i with
  | jp a =>
    cases h
    exact .inr (.inr (.inr (.inl (addrWord_le a))))
  | jpV0 a =>
    cases h
    exact .inr (.inr (.inr (.inl (jumpTarget_le s a))))
  | call a =>
    obtain ⟨-, -, -, ht⟩ := exec_call_next h
    rw [ht]
    exact .inr (.inr (.inr (.inl (addrWord_le a))))
  | ret =>
    obtain ⟨j, -, -, ht⟩ := exec_ret_next h
    rw [ht]
    exact .inr (.inr (.inr (.inr ⟨j, rfl⟩)))
  | seImm | sneImm | seReg | sneReg | skp | sknp =>
    cases h
    exact (hskip _).imp_right .inl
  | ldVxK x =>
    obtain rfl | ⟨b, rfl⟩ := exec_ldVxK_next h
    · exact .inr (.inr (.inl rfl))
    · exact .inl rfl
  | _ => exact .inl (exec_frame h .pc (by simp [Writes]))

/-! ### Instructions -/

/-- The invariant speaks of memory, PC and the stack alone. -/
theorem Inv.congr (h : s.Inv) (hm : t.mem = s.mem) (hpc : t.pc = s.pc) (hst : t.stack = s.stack) : t.Inv where
  memWf := hm ▸ h.memWf
  memArea := hm ▸ h.memArea
  pcRange := hpc ▸ h.pcRange
  stackRange := hst ▸ h.stackRange

theorem writeBytes_inv {m : Memory} {a : Nat} {bs : List Byte} (hwf : m.wf = true) (harea : m.inProgramArea = true)
    (hlow : 0x200 ≤ a) (htop : a + bs.length ≤ 0x1000) :
    (m.writeBytes a bs).wf = true ∧ (m.writeBytes a bs).inProgramArea = true :=
  ⟨Memory.writeBytes_wf hwf a bs, Memory.writeBytes_inProgramArea harea ⟨hlow, htop⟩⟩

/-- An instruction takes the execute phase's invariant to the invariant. -/
theorem exec_inv (hs : s.ExecInv) (h : exec i s = .next t) : t.Inv := by
  obtain ⟨⟨hwf, harea, -, hstack⟩, hlow, hhigh⟩ := hs
  have hmem : t.mem.wf = true ∧ t.mem.inProgramArea = true := by
    obtain hm | ⟨bs, hbot, htop, hm⟩ := exec_mem h
    · exact hm ▸ ⟨hwf, harea⟩
    · exact hm ▸ writeBytes_inv hwf harea hbot htop
  have hpc : t.pc.toNat ≤ 0x1002 := by
    obtain hp | hp | hp | hp | ⟨j, hp⟩ := exec_pc h
    · rw [hp]; omega
    · rw [hp, BitVec.toNat_add]; simp; omega
    · rw [hp, BitVec.toNat_sub]; simp; omega
    · omega
    · rw [hp]; exact (hstack j).trans (by decide)
  refine ⟨hmem.1, hmem.2, hpc, fun j => ?_⟩
  obtain hj | hj := exec_stack h j
  · exact hj ▸ hstack j
  · exact hj ▸ hhigh

/-! ### Steps -/

/-- The advance of a Step that passed the fetch check leads into the execute phase. -/
theorem advance_execInv (hs : s.Inv) (hpc : s.pc.toNat ≤ 0xFFE) (e : Nat) : (s.advance e).ExecInv := by
  have hadd := advance_pc_toNat hpc e
  exact ⟨⟨hs.memWf, hs.memArea, by omega, hs.stackRange⟩, by omega, by omega⟩

theorem stepTransaction_next_inv (hs : s.Inv) (h : stepTransaction e s = .next t) : t.Inv := by
  obtain ⟨-, hraise⟩ | ⟨-, -, hraise⟩ | ⟨hpc, i, -, -, hexec⟩ := stepTransaction_cases e s
  · exact absurd (hraise.symm.trans h) (raise_ne_next _ _ _)
  · exact absurd (hraise.symm.trans h) (raise_ne_next _ _ _)
  · exact exec_inv (advance_execInv hs hpc e) (hexec.symm.trans h)

theorem stepTransaction_fault_inv (hs : s.Inv) (h : stepTransaction e s = .fault f) : f.after.Inv := by
  obtain ⟨-, ⟨hf, -⟩ | ⟨hf, hpc⟩⟩ := theMachineGoesOnAfterAnError e s f h
  · exact hf ▸ hs
  · exact hf ▸ (advance_execInv hs hpc e).inv

/-! ### Host calls -/

/-- Settles O20: an empty memory, PC at 0x200 and a stack of zeros. -/
theorem resetMeetsInvariant : Obligations.ResetMeetsInvariant := ⟨Memory.reset_wf, rfl, by decide, by decide⟩

theorem loadProgram_inv (bytes : List Byte) (hs : s.Inv) : (loadProgram bytes s).1.Inv := by
  unfold loadProgram
  split_ifs with hlen
  · exact hs
  · obtain ⟨hwf, harea⟩ := writeBytes_inv (bs := bytes) hs.memWf hs.memArea (Nat.le_refl 0x200) (Nat.le_of_not_lt hlen)
    exact ⟨hwf, harea, hs.pcRange, hs.stackRange⟩

theorem setKey_inv (id : Nat) (b : Bool) (hs : s.Inv) : (setKey id b s).1.Inv := by
  unfold setKey
  split_ifs
  · exact Inv.congr hs rfl rfl rfl
  · exact hs

theorem hostCall_inv (c : HostCall) (hs : s.Inv) : (hostCall c s).1.Inv := by
  cases c with
  | reset => exact Inv.congr resetMeetsInvariant rfl rfl rfl
  | loadProgram bytes => exact loadProgram_inv bytes hs
  | keyPress id => exact setKey_inv id true hs
  | keyRelease id => exact setKey_inv id false hs
  | setQuirk q b => exact Inv.congr hs rfl rfl rfl

theorem hostCalls_inv (calls : List HostCall) (hs : s.Inv) : (hostCalls calls s).Inv := by
  induction calls generalizing s with
  | nil => exact hs
  | cons c calls ih => exact ih (hostCall_inv c hs)

theorem hostTurn_inv (hs : s.Inv) : s.hostTurn.Inv := by
  unfold State.hostTurn
  split
  · exact Inv.congr hs rfl rfl rfl
  · exact hostCalls_inv _ (Inv.congr hs rfl rfl rfl)

/-- Settles O18: the host's turn keeps the invariant, and so does the Step transaction after it. -/
theorem stepKeepsInvariant : Obligations.StepKeepsInvariant :=
  fun _ hs => ⟨fun _ h => stepTransaction_next_inv (hostTurn_inv hs) h,
    fun _ h => stepTransaction_fault_inv (hostTurn_inv hs) h⟩

/-- Settles O19: host calls one by one, a Step by its outcome. -/
theorem everyTransactionKeepsInvariant : Obligations.EveryTransactionKeepsInvariant := by
  intro tr s hs
  cases tr with
  | call c => exact hostCall_inv c hs
  | step e =>
    obtain ⟨t, h⟩ | ⟨f, h⟩ := stepTransaction_next_or_fault e s
    · rw [transact, h]
      exact stepTransaction_next_inv hs h
    · rw [transact_step_of_fault h]
      exact stepTransaction_fault_inv hs h

end Sys2Proof.Proofs
end

section
/-! PROOF. What each instruction does (41_control_flow.md to 45_keypad_timer_random.md), but for the block moves and the
draw: the value it writes, with the frame of every instruction (`exec_frame`) for all that it leaves alone. -/

namespace Sys2Proof.Proofs

open Sys2Proof.Machine

variable {s t : State} {i : Instr} {w : Part → Prop}

/-- The frame of an instruction, read as the list of parts its rule names. -/
theorem exec_frame_of (h : exec i s = .next t) (hw : ∀ p, Writes i s p → w p) : ChangesOnly w s t :=
  (exec_frame h).mono hw

/-! ### Control transfer -/

/-- Settles O27: NNN widened to 16 bits keeps its value. -/
theorem jumpSetsThePc : Obligations.JumpSetsThePc :=
  fun a _ => ⟨_, rfl, addrWord_toNat a, exec_frame_of (i := .jp a) rfl (by simp [Writes])⟩

/-- Settles O28: by the depth, as the push has room or not. -/
theorem callPushesAndJumps : Obligations.CallPushesAndJumps := by
  intro a s
  refine ⟨fun j hj => ?_, fun hfull => ?_⟩
  · obtain ⟨t, hnext, -, hsp, hstack, ht⟩ | ⟨-, hfull⟩ := exec_call_cases a s
    · refine ⟨t, hnext, (hstack j).trans (if_pos hj.symm), hsp, ?_, exec_frame_of hnext ?_⟩
      · rw [ht]
        exact addrWord_toNat a
      · rintro p (rfl | rfl | ⟨k, hk, rfl⟩)
        · simp
        · simp
        · simp [Fin.ext (hk.trans hj)]
    · omega
  · obtain ⟨f, hf, hk, hs⟩ := raise_eq .stackOverflow s
    exact ⟨f, (exec_call_of_full a hfull).trans hf, hk, hs⟩

/-- Settles O29: by the depth, as there is an entry to pop or not. -/
theorem returnPopsThePc : Obligations.ReturnPopsThePc := by
  intro s
  refine ⟨fun j hj => ?_, fun hempty => ?_⟩
  · obtain ⟨t, k, hnext, hk, hsp, ht⟩ | ⟨-, hempty⟩ := exec_ret_cases s
    · obtain rfl : k = j := Fin.ext (by omega)
      exact ⟨t, hnext, ht ▸ rfl, hsp, exec_frame_of hnext (by simp [Writes])⟩
    · omega
  · obtain ⟨f, hf, hk, hs⟩ := raise_eq .stackUnderflow s
    exact ⟨f, (exec_ret_of_empty hempty).trans hf, hk, hs⟩

/-- Settles O31: the CALL left its PC in the entry that the RET pops. -/
theorem returnComesBackToTheCall : Obligations.ReturnComesBackToTheCall := by
  intro a s t u hcall hstack hsp
  obtain ⟨hroom, hdepth, hentry, -⟩ := exec_call_next hcall
  obtain ⟨w, hret, hpc, hback, -⟩ := (returnPopsThePc u).1 ⟨s.sp.val, hroom⟩ (hsp ▸ hdepth)
  refine ⟨w, hret, hpc.trans ?_, Fin.ext hback⟩
  simp only [hstack]
  exact (hentry ⟨s.sp.val, hroom⟩).trans (if_pos rfl)

/-- Settles O32: the skip goes by equality, or by its negation. -/
theorem immediateSkips : Obligations.ImmediateSkips := by
  intro x nn s
  refine ⟨⟨_, rfl, ?_, exec_frame_of (i := .seImm x nn) rfl (by simp [Writes])⟩,
    ⟨_, rfl, ?_, exec_frame_of (i := .sneImm x nn) rfl (by simp [Writes])⟩⟩
  · simp
  · by_cases h : s.reg x = nn <;> simp [h]

/-- Settles O33: the skip goes by equality, or by its negation. -/
theorem registerSkips : Obligations.RegisterSkips := by
  intro x y s
  refine ⟨⟨_, rfl, ?_, exec_frame_of (i := .seReg x y) rfl (by simp [Writes])⟩,
    ⟨_, rfl, ?_, exec_frame_of (i := .sneReg x y) rfl (by simp [Writes])⟩⟩
  · simp
  · by_cases h : s.reg x = s.reg y <;> simp [h]

theorem byteWord_toNat (b : Byte) : (byteWord b).toNat = b.toNat := by
  have := b.isLt
  simp [byteWord]
  omega

/-- The target of BNNN as a number: the sum does not wrap in 16 bits, and its low 12 bits stand. -/
theorem jumpTarget_toNat (s : State) (a : Addr) :
    (jumpTarget s a).toNat = (a.toNat + (jumpOffset s a).toNat) % 4096 := by
  have ha := a.isLt
  have hb := (jumpOffset s a).isLt
  rw [jumpTarget, BitVec.toNat_and, BitVec.toNat_add, addrWord_toNat, byteWord_toNat]
  show _ &&& (2 ^ 12 - 1) = _
  rw [Nat.and_two_pow_sub_one_eq_mod]
  omega

theorem jumpOffset_of_legacy (a : Addr) (h : s.quirks.jumpLegacy = true) : jumpOffset s a = s.reg 0 := if_pos h

theorem jumpOffset_of_modern {a : Addr} {x : Reg} (h : s.quirks.jumpLegacy = false) (hx : x.val = a.toNat / 256) :
    jumpOffset s a = s.reg x := by
  have ha := a.isLt
  have hfield : regOfField (a.extractLsb' 8 4) = x := by
    apply Fin.ext
    simp [regOfField, hx, Nat.shiftRight_eq_div_pow]
    omega
  rw [jumpOffset, h, if_neg (by decide), hfield]

/-- Settles O34: the register of the jump quirk, then the sum. -/
theorem jumpWithOffset : Obligations.JumpWithOffset := by
  intro a s
  refine ⟨_, rfl, fun h => ?_, fun h x hx => ?_, exec_frame_of (i := .jpV0 a) rfl (by simp [Writes])⟩
  · rw [← jumpOffset_of_legacy a h]
    exact jumpTarget_toNat s a
  · rw [← jumpOffset_of_modern h hx]
    exact jumpTarget_toNat s a

/-! ### Registers and arithmetic -/

/-- Settles O35: the immediate, or the sum modulo 256. -/
theorem immediateLoadAndAdd : Obligations.ImmediateLoadAndAdd := by
  intro x nn s
  refine ⟨⟨_, rfl, ?_, exec_frame_of (i := .ldImm x nn) rfl (by simp [Writes])⟩,
    ⟨_, rfl, ?_, exec_frame_of (i := .addImm x nn) rfl (by simp [Writes])⟩⟩
  · simp
  · simp [BitVec.toNat_add]

/-- Settles O36: the operations on bytes are the ones on each bit. -/
theorem registerMoveAndLogic : Obligations.RegisterMoveAndLogic := by
  intro x y s
  refine ⟨⟨_, rfl, ?_, exec_frame_of (i := .ldReg x y) rfl (by simp [Writes])⟩,
    ⟨_, rfl, fun k => ?_, exec_frame_of (i := .orReg x y) rfl (by simp [Writes])⟩,
    ⟨_, rfl, fun k => ?_, exec_frame_of (i := .andReg x y) rfl (by simp [Writes])⟩,
    ⟨_, rfl, fun k => ?_, exec_frame_of (i := .xorReg x y) rfl (by simp [Writes])⟩⟩
  · simp
  · simp
  · simp
  · simp

/-- VX after VF and then VX were written. -/
theorem setFlagThenReg_reg_result (s : State) (f : Byte) (x : Reg) (b : Byte) : (s.setFlagThenReg f x b).reg x = b := by
  simp

/-- VF after VF and then another register were written. -/
theorem setFlagThenReg_reg_flag (s : State) (f : Byte) {x : Reg} (b : Byte) (hx : x ≠ VF) :
    (s.setFlagThenReg f x b).reg VF = f := by
  simp [hx.symm]

theorem flagByte_decide (c : Prop) [Decidable c] : flagByte (decide c) = if c then 1 else 0 := by
  simp [flagByte]

/-- Settles O37: the sum modulo 256, and the carry of the sum that does not wrap. -/
theorem addSetsTheCarry : Obligations.AddSetsTheCarry := by
  intro x y s
  refine ⟨_, rfl, ?_, fun hx => ?_, exec_frame_of (i := .addReg x y) rfl (by simp [Writes, or_comm])⟩
  · rw [setFlagThenReg_reg_result, BitVec.toNat_add]
  · rw [setFlagThenReg_reg_flag _ _ _ hx, carryFlag, flagByte_decide]

theorem sub_toNat (a b : Byte) : (a - b).toNat = (a.toNat + 256 - b.toNat) % 256 := by
  have := b.isLt
  rw [BitVec.toNat_sub]
  omega

/-- Settles O38: the difference modulo 256, and the comparison of the operands. -/
theorem subtractSetsNoBorrow : Obligations.SubtractSetsNoBorrow := by
  intro x y s
  refine ⟨⟨_, rfl, ?_, fun hx => ?_, exec_frame_of (i := .subReg x y) rfl (by simp [Writes, or_comm])⟩,
    ⟨_, rfl, ?_, fun hx => ?_, exec_frame_of (i := .subn x y) rfl (by simp [Writes, or_comm])⟩⟩
  · rw [setFlagThenReg_reg_result, sub_toNat]
  · rw [setFlagThenReg_reg_flag _ _ _ hx, noBorrowFlag, flagByte_decide]
  · rw [setFlagThenReg_reg_result, sub_toNat]
  · rw [setFlagThenReg_reg_flag _ _ _ hx, noBorrowFlag, flagByte_decide]

theorem shiftRightFlag_toNat (v : Byte) : (shiftRightFlag v).toNat = v.toNat % 2 := by
  rw [shiftRightFlag, flagByte, BitVec.getLsbD, Nat.testBit_zero]
  obtain h | h := Nat.mod_two_eq_zero_or_one v.toNat <;> simp [h]

theorem shiftLeftFlag_toNat (v : Byte) : (shiftLeftFlag v).toNat = v.toNat / 128 := by
  have hlt := v.isLt
  rw [shiftLeftFlag, flagByte, BitVec.getLsbD, Nat.testBit_eq_decide_div_mod_eq]
  split_ifs with h
  · simp at h ⊢
    omega
  · simp at h ⊢
    omega

/-- Settles O39: the shifted value, and the bit shifted out as a number. -/
theorem shiftsByOne : Obligations.ShiftsByOne := by
  rintro x y s v hv
  obtain rfl : v = shiftSource s x y := hv
  refine ⟨⟨_, rfl, ?_, fun hx => ?_, exec_frame_of (i := .shr x y) rfl (by simp [Writes, or_comm])⟩,
    ⟨_, rfl, ?_, fun hx => ?_, exec_frame_of (i := .shl x y) rfl (by simp [Writes, or_comm])⟩⟩
  · rw [setFlagThenReg_reg_result, BitVec.toNat_ushiftRight, Nat.shiftRight_one]
  · rw [setFlagThenReg_reg_flag _ _ _ hx, shiftRightFlag_toNat]
  · rw [setFlagThenReg_reg_result, BitVec.toNat_shiftLeft, Nat.shiftLeft_eq]
  · rw [setFlagThenReg_reg_flag _ _ _ hx, shiftLeftFlag_toNat]

/-! ### The index register -/

theorem lowNibble_val (b : Byte) : (lowNibble b).val = b.toNat % 16 := by simp [lowNibble]

theorem glyphAddress_toNat (b : Byte) : (glyphAddress b).toNat = 0x050 + 5 * (b.toNat % 16) := by
  rw [glyphAddress, lowNibble_val, fontBase, glyphRows, BitVec.toNat_ofNat]
  omega

/-- Settles O40: both addresses fit in 16 bits. -/
theorem indexLoads : Obligations.IndexLoads :=
  fun a x s => ⟨⟨_, rfl, addrWord_toNat a, exec_frame_of (i := .ldI a) rfl (by simp [Writes])⟩,
    ⟨_, rfl, glyphAddress_toNat (s.reg x), exec_frame_of (i := .ldF x) rfl (by simp [Writes])⟩⟩

theorem index_add_toNat (a : Word) (b : Byte) : (a + byteWord b).toNat = (a.toNat + b.toNat) % 65536 := by
  rw [BitVec.toNat_add, byteWord_toNat]

/-- Settles O41: the flag is taken from the sum that I holds. -/
theorem addToIndexSetsTheFlag : Obligations.AddToIndexSetsTheFlag := by
  intro x s
  refine ⟨_, rfl, index_add_toNat _ _, ?_, exec_frame_of (i := .addI x) rfl (by simp [Writes])⟩
  rw [State.setReg_reg, if_pos rfl, indexFlag, flagByte_decide, index_add_toNat]

/-! ### Display, keypad, timers, random source -/

/-- Settles O47: the blank screen has every pixel off. -/
theorem clearScreenTurnsEveryPixelOff : Obligations.ClearScreenTurnsEveryPixelOff :=
  fun _ => ⟨_, rfl, pixelAt_blankScreen, exec_frame (i := .cls) rfl⟩

/-- Settles O50: the low four bits name the key. -/
theorem keySkips : Obligations.KeySkips := by
  intro x s k hk
  obtain rfl : keyOf s x = k := Fin.ext ((lowNibble_val _).trans hk.symm)
  refine ⟨⟨_, rfl, State.skipIf_pc _ _, exec_frame_of (i := .skp x) rfl (by simp [Writes])⟩,
    ⟨_, rfl, ?_, exec_frame_of (i := .sknp x) rfl (by simp [Writes])⟩⟩
  cases s.key (keyOf s x) <;> simp

/-- Settles O51: the search finds the least key, or none. -/
theorem waitForKeyTakesTheLeastKey : Obligations.WaitForKeyTakesTheLeastKey := by
  intro x s
  refine ⟨fun k hk hleast => ?_, fun hnone => ?_⟩
  · obtain ⟨j, hj, hpressed, hlow⟩ | ⟨-, hnone⟩ := firstKey_cases s
    · have hjk : j = k := by
        obtain h | h | h := lt_trichotomy j k
        · simp [hleast j h] at hpressed
        · exact h
        · simp [hlow k h] at hk
      subst hjk
      refine ⟨_, exec_ldVxK_of_some x hj, ?_, (changesOnly_setReg s x _).mono (by simp)⟩
      rw [State.setReg_reg, if_pos rfl, BitVec.toNat_ofNat]
      omega
    · simp [hnone k] at hk
  · obtain ⟨j, -, hpressed, -⟩ | ⟨hj, -⟩ := firstKey_cases s
    · simp [hnone j] at hpressed
    · exact ⟨_, exec_ldVxK_of_none x hj, rfl, (changesOnly_pc s _).mono (by simp)⟩

/-- Settles O52: each copies one byte. -/
theorem timersAreReadAndSet : Obligations.TimersAreReadAndSet := by
  intro x s
  refine ⟨⟨_, rfl, ?_, exec_frame_of (i := .ldVxDt x) rfl (by simp [Writes])⟩,
    ⟨_, rfl, rfl, exec_frame_of (i := .ldDtVx x) rfl (by simp [Writes])⟩,
    ⟨_, rfl, rfl, exec_frame_of (i := .ldStVx x) rfl (by simp [Writes])⟩⟩
  simp

/-- Settles O53: one draw, then the mask. -/
theorem rndMasksOneDrawnByte : Obligations.RndMasksOneDrawnByte := by
  intro x nn s
  refine ⟨_, rfl, ?_, rfl, exec_frame_of (i := .rnd x nn) rfl (by simp [Writes])⟩
  simp [State.drawnByte]

end Sys2Proof.Proofs
end

section
/-! PROOF. Bytes moved as a block (43_index_memory.md FX33, FX55, FX65, 70_reset_and_hazards.md R252): what is read
back from where it was written, and what the next fetch sees (20_memory.md R54). -/

namespace Sys2Proof.Proofs

open Sys2Proof.Machine

variable {s t : State} {x : Reg}

theorem writeBytes_byte_of_getElem? {m : Memory} (hm : m.wf = true) {bs : List Byte} {k : Nat} {b : Byte}
    (h : bs[k]? = some b) (a : Nat) : (m.writeBytes a bs).byte (a + k) = b := by
  rw [Memory.writeBytes_byte hm, if_pos (Nat.le_add_right a k), Nat.add_sub_cancel_left, List.getD_eq_getElem?_getD, h]
  rfl

theorem regsUpTo_getElem? (s : State) {r : Reg} (h : r ≤ x) : (s.regsUpTo x)[r.val]? = some (s.reg r) := by
  have hlt : r.val < x.val + 1 := Nat.lt_succ_of_le h
  simp [State.regsUpTo, State.reg, hlt]

/-- The advance of I over a range below the top does not wrap. -/
theorem advanceIndex_index_toNat {n : Nat} (h : s.index.toNat + n ≤ 0x1000) : (s.advanceIndex n).index.toNat =
    if s.quirks.memLegacy = true then s.index.toNat + n else s.index.toNat := by
  rw [State.advanceIndex_index]
  split_ifs
  · rw [BitVec.toNat_add, BitVec.toNat_ofNat]
    omega
  · rfl

/-! ### FX33 -/

/-- Settles O42: each digit is read back from where it was written. -/
theorem bcdStoresThreeDigits : Obligations.BcdStoresThreeDigits := by
  intro x s hm hlow htop
  have hb := (s.reg x).isLt
  have hnext := guarded_pass ((checkWrite_eq_none_iff s.index 3).2 ⟨hlow, htop⟩) s
    { s with mem := s.mem.writeBytes s.index.toNat (bcdDigits (s.reg x)) }
  have hdigit : ∀ k b, (bcdDigits (s.reg x))[k]? = some b →
      (s.mem.writeBytes s.index.toNat (bcdDigits (s.reg x))).byte (s.index.toNat + k) = b :=
    fun k b h => writeBytes_byte_of_getElem? hm h _
  refine ⟨_, hnext, ?_, ?_, ?_, Memory.writeBytes_wf hm _ _, exec_frame_of (i := .ldB x) hnext ?_⟩
  · exact (congrArg BitVec.toNat (hdigit 0 _ rfl)).trans (Nat.mod_eq_of_lt (by omega))
  · exact (congrArg BitVec.toNat (hdigit 1 _ rfl)).trans (Nat.mod_eq_of_lt (by omega))
  · exact (congrArg BitVec.toNat (hdigit 2 _ rfl)).trans (Nat.mod_eq_of_lt (by omega))
  · rintro p ⟨k, hk, rfl⟩
    interval_cases k <;> simp

/-! ### FX55 and FX65 -/

/-- Settles O43: the k-th register is read back at I + k, and the advance of I does not wrap. -/
theorem storeRegistersToMemory : Obligations.StoreRegistersToMemory := by
  intro x s hm hlow htop
  have hnext := guarded_pass ((checkWrite_eq_none_iff s.index (x.val + 1)).2 ⟨hlow, htop⟩) s
    ({ s with mem := s.mem.writeBytes s.index.toNat (s.regsUpTo x) }.advanceIndex (x.val + 1))
  refine ⟨_, hnext, fun r hr => ?_, advanceIndex_index_toNat htop, Memory.writeBytes_wf hm _ _,
    exec_frame_of (i := .storeRegs x) hnext fun p => Or.imp_left And.left⟩
  exact writeBytes_byte_of_getElem? hm (regsUpTo_getElem? s hr) _

/-- Settles O44: the block load reads I + k into the k-th register. -/
theorem loadRegistersFromMemory : Obligations.LoadRegistersFromMemory := by
  intro x s htop
  have hnext := guarded_pass ((checkRead_eq_none_iff s.index (x.val + 1)).2 htop) s
    ((s.loadRegsFrom s.index.toNat x).advanceIndex (x.val + 1))
  refine ⟨_, hnext, fun r hr => ?_, advanceIndex_index_toNat htop,
    exec_frame_of (i := .loadRegs x) hnext fun p => Or.imp_left And.left⟩
  rw [State.advanceIndex_reg, State.loadRegsFrom_reg, if_pos (Fin.le_def.1 hr)]

/-- An FX55 that succeeded had a writable range, and left the registers there. -/
theorem storeRegs_next (hm : s.mem.wf = true) (h : exec (.storeRegs x) s = .next t) :
    s.index.toNat + (x.val + 1) ≤ 0x1000 ∧ ∀ r : Reg, r ≤ x → t.mem.byte (s.index.toNat + r.val) = s.reg r := by
  obtain ⟨hlow, htop⟩ := (checkWrite_eq_none_iff _ _).1 (guarded_eq_next h).1
  obtain ⟨t', hnext, hbytes, -⟩ := storeRegistersToMemory x s hm hlow htop
  cases hnext.symm.trans h
  exact ⟨htop, hbytes⟩

/-- Settles O45: each register is the byte that was stored from it. -/
theorem loadingIsSymmetricWithStoring : Obligations.LoadingIsSymmetricWithStoring := by
  intro x s t u hm hstore hmem hindex
  obtain ⟨htop, hbytes⟩ := storeRegs_next hm hstore
  obtain ⟨w, hload, hregs, -⟩ := loadRegistersFromMemory x u (hindex.symm ▸ htop)
  refine ⟨w, hload, fun r hr => ?_⟩
  rw [hregs r hr, hmem, hindex, hbytes r hr]

/-- Settles O46: V0 and V1 are the two bytes at PC. -/
theorem aStoreIsSeenByTheNextFetch : Obligations.AStoreIsSeenByTheNextFetch := by
  intro x s t hm hindex hx hstore
  obtain ⟨htop, hbytes⟩ := storeRegs_next hm hstore
  have hpc : t.pc = s.index := hindex ▸ exec_frame hstore .pc (by simp [Writes])
  have hle : t.pc.toNat ≤ 0xFFE := by
    rw [hpc]
    omega
  rw [nextOpcode_of_le hle, hpc]
  exact congrArg some (congrArg₂ opcodeOfBytes (hbytes 0 (Fin.zero_le x)) (hbytes 1 hx))

/-! ### LoadProgram -/

/-- Settles O57: the k-th byte is read back at 0x200 + k. -/
theorem loadProgramCopiesTheBytes : Obligations.LoadProgramCopiesTheBytes := by
  intro bytes s hm
  refine ⟨fun hlen => ?_, fun hlen => ?_⟩
  · have hfits : ¬ Config.memSize < Config.programStart + bytes.length := by
      show ¬ 0x1000 < 0x200 + bytes.length
      omega
    have hcall : hostCall (.loadProgram bytes) s = _ := if_neg hfits
    rw [hcall]
    exact ⟨rfl, fun k b hk => writeBytes_byte_of_getElem? hm hk 0x200, changesOnly_writeBytes s 0x200 bytes⟩
  · refine if_pos ?_
    show 0x1000 < 0x200 + bytes.length
    omega

end Sys2Proof.Proofs
end

section
/-! PROOF. The sprite rasteriser (44_display.md R171 to R175): a draw flips a set of pixels, each once, so that what was
hit is what was on; the set is built up pixel by pixel, row by row. -/

namespace Sys2Proof.Proofs

open Sys2Proof.Machine

/-- From c to d the pixels of the screen in `b` are flipped, each once, and a collision is met where one was on. -/
structure Flips (b : Nat → Nat → Bool) (c d : Canvas) : Prop where
  pixel : ∀ v u, v < 32 → u < 64 → pixelAt d.fb v u = (pixelAt c.fb v u ^^ b v u)
  hit : d.hit = true ↔ c.hit = true ∨ ∃ v u, v < 32 ∧ u < 64 ∧ b v u = true ∧ pixelAt c.fb v u = true

section
variable {b b' b'' : Nat → Nat → Bool} {c d g : Canvas}

theorem Flips.of_none (c : Canvas) (hb : ∀ v u, v < 32 → u < 64 → b v u = false) : Flips b c c where
  pixel v u hv hu := by simp [hb v u hv hu]
  hit := by
    refine ⟨.inl, fun h => h.resolve_right ?_⟩
    rintro ⟨v, u, hv, hu, hon, -⟩
    simp [hb v u hv hu] at hon

/-- Flips of different pixels add up. -/
theorem Flips.trans (h : Flips b c d) (h' : Flips b' d g)
    (hdisj : ∀ v u, b v u = true → b' v u = false) (hor : ∀ v u, v < 32 → u < 64 → b'' v u = (b v u || b' v u)) :
    Flips b'' c g where
  pixel v u hv hu := by
    rw [h'.pixel v u hv hu, h.pixel v u hv hu, hor v u hv hu]
    cases hbv : b v u with
    | false => simp
    | true => simp [hdisj v u hbv]
  hit := by
    have hkeep : ∀ v u, v < 32 → u < 64 → b' v u = true → pixelAt d.fb v u = pixelAt c.fb v u := by
      intro v u hv hu hb'
      have hb : b v u = false := by
        by_contra hb
        simp [hdisj v u (Bool.eq_true_of_not_eq_false hb)] at hb'
      simp [h.pixel v u hv hu, hb]
    rw [h'.hit, h.hit, or_assoc]
    refine or_congr_right ⟨?_, ?_⟩
    · rintro (⟨v, u, hv, hu, hb, hon⟩ | ⟨v, u, hv, hu, hb', hon⟩)
      · exact ⟨v, u, hv, hu, by simp [hor v u hv hu, hb], hon⟩
      · exact ⟨v, u, hv, hu, by simp [hor v u hv hu, hb'], hkeep v u hv hu hb' ▸ hon⟩
    · rintro ⟨v, u, hv, hu, hb'', hon⟩
      rw [hor v u hv hu, Bool.or_eq_true] at hb''
      obtain hb | hb' := hb''
      · exact .inl ⟨v, u, hv, hu, hb, hon⟩
      · exact .inr ⟨v, u, hv, hu, hb', (hkeep v u hv hu hb').trans hon⟩

end

/-- One flip, on the screen or off it (R172, R175). -/
theorem flips_flip (c : Canvas) (y x : Nat) : Flips (fun v u => decide (v = y ∧ u = x)) c (c.flip y x) := by
  by_cases hin : y < 32 ∧ x < 64
  · refine ⟨fun v u _ _ => ?_, ?_⟩
    · rw [flip_pixel c hin]
      by_cases hvu : v = y ∧ u = x
      · simp [hvu]
      · simp [hvu]
    · rw [flip_hit c hin, Bool.or_eq_true]
      refine or_congr_right ⟨fun hon => ⟨y, x, hin.1, hin.2, by simp, hon⟩, ?_⟩
      rintro ⟨v, u, -, -, hvu, hon⟩
      obtain ⟨rfl, rfl⟩ := of_decide_eq_true hvu
      exact hon
  · rw [flip_off c hin]
    refine .of_none c fun v u hv hu => decide_eq_false ?_
    rintro ⟨rfl, rfl⟩
    exact hin ⟨hv, hu⟩

/-- The pixels under the first n columns of a row of the sprite (R173). -/
def rowBit (y x : Nat) (row : Byte) (n v u : Nat) : Bool :=
  decide (v = y ∧ x ≤ u ∧ u - x < n) && rowPixel row (u - x)

/-- The pixels under some rows of the sprite (R173, R174). -/
def rowsBit (y x : Nat) (rows : List Byte) (v u : Nat) : Bool :=
  decide (y ≤ v ∧ v - y < rows.length ∧ x ≤ u ∧ u - x < 8) && rowPixel (rows.getD (v - y) 0) (u - x)

theorem flips_flip_if (p : Bool) (c : Canvas) (y x : Nat) :
    Flips (fun v u => decide (v = y ∧ u = x) && p) c (if p then c.flip y x else c) := by
  cases p with
  | true => simpa using flips_flip c y x
  | false => exact .of_none c fun _ _ _ _ => Bool.and_false _

theorem rowBit_succ (y x : Nat) (row : Byte) (n v u : Nat) : rowBit y x row (n + 1) v u =
    (rowBit y x row n v u || (decide (v = y ∧ u = x + n) && rowPixel row n)) := by
  unfold rowBit
  by_cases hu : u = x + n
  · subst hu
    simp
  · have hlt : (v = y ∧ x ≤ u ∧ u - x < n + 1) ↔ v = y ∧ x ≤ u ∧ u - x < n := by omega
    simp only [hlt, hu, and_false, decide_false, Bool.false_and, Bool.or_false]

/-- The rows below the first start one line lower. -/
theorem rowsBit_cons (y x : Nat) (row : Byte) (rows : List Byte) (v u : Nat) :
    rowsBit y x (row :: rows) v u = (rowBit y x row 8 v u || rowsBit (y + 1) x rows v u) := by
  unfold rowsBit rowBit
  obtain hv | rfl | hv := Nat.lt_trichotomy v y
  · simp [show ¬ y ≤ v by omega, show ¬ y + 1 ≤ v by omega, show v ≠ y by omega]
  · simp
  · obtain ⟨k, rfl⟩ : ∃ k, v = y + 1 + k := ⟨v - (y + 1), by omega⟩
    simp [show y ≤ y + 1 + k by omega, show y + 1 + k - y = k + 1 by omega, show y + 1 + k ≠ y by omega]

theorem flips_columns (c : Canvas) (y x : Nat) (row : Byte) (n : Nat) : Flips (rowBit y x row n) c
    ((List.range n).foldl (fun c k => if rowPixel row k then c.flip y (x + k) else c) c) := by
  induction n with
  | zero => exact .of_none c fun v u _ _ => by simp [rowBit]
  | succ n ih =>
    rw [List.range_succ, List.foldl_append]
    refine ih.trans (flips_flip_if (rowPixel row n) _ y (x + n)) (fun v u hb => ?_) fun v u _ _ => rowBit_succ ..
    have hlt := of_decide_eq_true (Bool.and_eq_true_iff.1 hb).1
    simp [show u ≠ x + n by omega]

theorem flips_drawRow (c : Canvas) (y x : Nat) (row : Byte) : Flips (rowBit y x row 8) c (c.drawRow y x row) :=
  flips_columns c y x row 8

theorem flips_drawRows (c : Canvas) (y x : Nat) (rows : List Byte) :
    Flips (rowsBit y x rows) c (c.drawRows y x rows) := by
  induction rows generalizing c y with
  | nil => exact .of_none c fun v u _ _ => by simp [rowsBit]
  | cons row rows ih =>
    rw [Canvas.drawRows]
    split_ifs with hbottom
    · refine .of_none c fun v u hv _ => ?_
      simp [rowsBit, show ¬ y ≤ v by omega]
    · refine (flips_drawRow c y x row).trans (ih _ (y + 1)) (fun v u hb => ?_) fun v u _ _ => rowsBit_cons ..
      have hv := (of_decide_eq_true (Bool.and_eq_true_iff.1 hb).1).1
      simp [rowsBit, hv]

theorem readBytes_getD (m : Memory) (a : Nat) {n k : Nat} (h : k < n) :
    (m.readBytes a n).getD k 0 = m.byte (a + k) := by
  rw [List.getD_eq_getElem _ _ (by simpa using h)]
  simp [Memory.readBytes]

/-- The whole draw flips the pixels under the sprite's bits (R171, R172). -/
theorem flips_drawSprite (s : State) (x y : Reg) (n : Nibble) :
    Flips (spriteBit s (s.reg x) (s.reg y) n) ⟨s.fb, false⟩ (drawSprite s x y n) := by
  have hbits : rowsBit (spriteLine s y) (spriteColumn s x) (spriteRows s n) = spriteBit s (s.reg x) (s.reg y) n := by
    funext v u
    rw [rowsBit, spriteBit, spriteRows, Memory.readBytes_length, spriteLine, spriteColumn]
    by_cases hrow : v - (s.reg y).toNat % 32 < n.toNat
    · rw [readBytes_getD _ _ hrow, rowPixel]
    · simp [hrow]
  exact hbits ▸ flips_drawRows _ _ _ _

/-- Settles O48: the flipped pixels are the sprite's bits, and the collision is a flipped pixel that was on. -/
theorem drawFlipsTheSpritesPixels : Obligations.DrawFlipsTheSpritesPixels := by
  intro x y n s htop
  have hnext := guarded_pass ((checkRead_eq_none_iff s.index n.toNat).2 htop) s
    ({ s with fb := (drawSprite s x y n).fb }.setReg VF (collisionFlag (drawSprite s x y n)))
  obtain ⟨hpixel, hhit⟩ := flips_drawSprite s x y n
  refine ⟨_, hnext, hpixel, ?_, exec_frame (i := .drw x y n) hnext⟩
  rw [State.setReg_reg, if_pos rfl, collisionFlag, State.setReg_fb]
  cases hflag : (drawSprite s x y n).hit with
  | true =>
    obtain hfalse | ⟨v, u, hv, hu, hbit, hon⟩ := hhit.1 hflag
    · cases hfalse
    · refine .inl ⟨rfl, v, u, hv, hu, hon, ?_⟩
      rw [hpixel v u hv hu, hbit]
      simp [hon]
  | false =>
    refine .inr ⟨rfl, fun v u hv hu hon => ?_⟩
    have hbit : spriteBit s (s.reg x) (s.reg y) n v u = false := by
      by_contra hbit
      have hhit' := hhit.2 (.inr ⟨v, u, hv, hu, Bool.eq_true_of_not_eq_false hbit, hon⟩)
      simp [hflag] at hhit'
    rw [hpixel v u hv hu, hbit]
    simp [hon]

/-- A sprite's bits depend on I and the bytes there alone. -/
theorem spriteBit_congr {s t : State} (hi : t.index = s.index) (hm : ∀ a, t.mem.byte a = s.mem.byte a) (vx vy : Byte)
    (n : Nibble) (v u : Nat) : spriteBit t vx vy n v u = spriteBit s vx vy n v u := by
  rw [spriteBit, spriteBit, hi, hm]

/-- Settles O49: the second draw flips the same pixels again. -/
theorem drawingTwiceRestoresTheScreen : Obligations.DrawingTwiceRestoresTheScreen := by
  intro x y n s t hx hy h
  have htop := (checkRead_eq_none_iff _ _).1 (guarded_eq_next h).1
  obtain ⟨t', hnext, hfirst, -, hframe⟩ := drawFlipsTheSpritesPixels x y n s htop
  cases hnext.symm.trans h
  have hi : t.index = s.index := hframe .index (by simp)
  have hm : ∀ a, t.mem.byte a = s.mem.byte a := fun a => hframe (.mem a) (by simp)
  have hvx : t.reg x = s.reg x := hframe (.v x) (by simp [hx])
  have hvy : t.reg y = s.reg y := hframe (.v y) (by simp [hy])
  obtain ⟨u, hnext', hsecond, -⟩ := drawFlipsTheSpritesPixels x y n t (hi.symm ▸ htop)
  refine ⟨u, hnext', fb_ext fun r c hr hc => ?_⟩
  rw [hsecond r c hr hc, hfirst r c hr hc, spriteBit_congr hi hm, hvx, hvy, Bool.xor_assoc, Bool.xor_self,
    Bool.xor_false]

end Sys2Proof.Proofs
end

section
/-! PROOF. The host's side (60_exceptions.md sections 8, 9, 70_reset_and_hazards.md section 1): keys, quirks, Reset and
construction. -/

namespace Sys2Proof.Proofs

open Sys2Proof.Machine

/-! ### Keys -/

theorem setKey_eq (k : Fin 16) (b : Bool) (s : State) :
    setKey k.val b s = ({ s with keys := s.keys.set k.val b }, .success) := dif_pos k.isLt

theorem setKey_of_gt {id : Nat} (h : 15 < id) (b : Bool) (s : State) : setKey id b s = (s, .invalidKey) :=
  dif_neg (by omega)

theorem set_key (s : State) (k j : Fin 16) (b : Bool) :
    ({ s with keys := s.keys.set k.val b } : State).key j = if j = k then b else s.key j := by
  simp [State.key, Vector.getElem_set, Fin.ext_iff, eq_comm]

theorem changesOnly_set_key (s : State) (k : Fin 16) (b : Bool) :
    ChangesOnly (· ∈ [.key k]) s { s with keys := s.keys.set k.val b } := by
  intro p hp
  cases p with
  | key j => exact (set_key s k j b).trans (if_neg fun h => hp (by simp [h]))
  | _ => rfl

theorem set_key_self {s : State} {k : Fin 16} {b : Bool} (h : s.key k = b) :
    { s with keys := s.keys.set k.val b } = s := by
  have hkeys : s.keys.set k.val b = s.keys := h ▸ Vector.set_getElem_self k.isLt
  rw [hkeys]

/-- What setting the level of one key does (60_exceptions.md R230 to R232). -/
theorem setKey_spec (id : Nat) (b : Bool) (s : State) :
    (∀ k : Fin 16, id = k.val → (setKey id b s).2 = .success ∧ (setKey id b s).1.key k = b ∧
      ChangesOnly (· ∈ [.key k]) s (setKey id b s).1 ∧ (s.key k = b → (setKey id b s).1 = s)) ∧
    (15 < id → setKey id b s = (s, .invalidKey)) := by
  refine ⟨?_, fun h => setKey_of_gt h b s⟩
  rintro k rfl
  rw [setKey_eq]
  exact ⟨rfl, (set_key s k k b).trans (if_pos rfl), changesOnly_set_key s k b, set_key_self⟩

/-- Settles O54: the key takes the level pressed. -/
theorem keyPressSetsOneKey : Obligations.KeyPressSetsOneKey := fun id s => setKey_spec id true s

/-- Settles O55: the key takes the level released. -/
theorem keyReleaseClearsOneKey : Obligations.KeyReleaseClearsOneKey := fun id s => setKey_spec id false s

/-! ### Quirks -/

/-- SetQuirk leaves PC and memory, so the Step after it runs what was there. -/
theorem stepTransaction_after_setQuirk {s : State} {i : Instr} {rest : List Byte} (q : QuirkField) (b : Bool)
    (hpc : s.pc.toNat ≤ 0xFFE) (hd : decode s.fetchBytes = .ok (i, rest)) (e : Nat) :
    stepTransaction e (hostCall (.setQuirk q b) s).1 = exec i ((hostCall (.setQuirk q b) s).1.advance e) :=
  stepTransaction_of_decode (s := (hostCall (.setQuirk q b) s).1) hpc hd e

/-- Settles O56: the Step runs its instruction in a state with the quirk as it was set. -/
theorem setQuirkActsFromTheNextStep : Obligations.SetQuirkActsFromTheNextStep := by
  intro b s
  refine ⟨rfl, rfl, rfl, fun e x y r a rest hpc => ⟨fun hd => ?_, fun hd hr => ?_, fun hd htop => ?_⟩⟩
  · rw [stepTransaction_after_setQuirk .shift b hpc hd]
    obtain ⟨⟨t, hnext, hval, -⟩, -⟩ := shiftsByOne x y ((hostCall (.setQuirk .shift b) s).1.advance e) _ rfl
    exact ⟨t, hnext, hval⟩
  · rw [stepTransaction_after_setQuirk .jump b hpc hd]
    obtain ⟨t, hnext, hlegacy, hmodern, -⟩ := jumpWithOffset a ((hostCall (.setQuirk .jump b) s).1.advance e)
    refine ⟨t, hnext, ?_⟩
    cases b with
    | true =>
      obtain rfl : r = 0 := Fin.ext hr
      exact hlegacy rfl
    | false => exact hmodern rfl r hr
  · rw [stepTransaction_after_setQuirk .mem b hpc hd]
    obtain ⟨t, hnext, -, hindex, -⟩ :=
      loadRegistersFromMemory x ((hostCall (.setQuirk .mem b) s).1.advance e) htop
    exact ⟨t, hnext, hindex⟩

/-! ### Reset -/

/-- Outside the glyph table memory is zero after Reset. -/
theorem resetByte_of_outside {a : Nat} (h : a < 0x050 ∨ 0x0A0 ≤ a) : resetByte a = 0 := by
  have hlen : glyphData.length = 80 := rfl
  rw [resetByte, fontBase]
  split_ifs with hlow
  · rfl
  · exact List.getD_eq_default _ _ (by omega)

/-- In the glyph table it is the glyph data. -/
theorem resetByte_of_glyph {a : Nat} (hlow : 0x050 ≤ a) (hhigh : a < 0x0A0) :
    glyphData[a - 0x050]? = some (resetByte a) := by
  have hlt : a - 0x050 < glyphData.length := by
    show a - 0x050 < 80
    omega
  rw [resetByte, fontBase, if_neg (Nat.not_lt.2 hlow), List.getD_eq_getElem _ _ hlt, List.getElem?_eq_getElem hlt]

/-- Settles O58: Reset by its fields, and construction as a Reset of the state that was configured. -/
theorem resetLeavesTheStatedValues : Obligations.ResetLeavesTheStatedValues := by
  refine ⟨fun s => ⟨_, rfl, ?_⟩, fun c => ⟨⟨_, rfl⟩, rfl, fun n hn => ?_⟩⟩
  · refine ⟨fun r => ?_, rfl, rfl, rfl, fun j => ?_, rfl, rfl, rfl, fun k => ?_, pixelAt_blankScreen,
      fun a => resetByte_of_outside, fun a => resetByte_of_glyph, rfl, rfl⟩
    · exact Vector.getElem_replicate r.isLt
    · exact Vector.getElem_replicate j.isLt
    · exact Vector.getElem_replicate k.isLt
  · show c.seed.getD Config.entropySeed = n
    rw [hn]
    rfl

end Sys2Proof.Proofs
end
